-- ==== Sys2Proof/Word.lean ====
section
/-! DEFINITION. The word types of the PWM duty scheduler (00_scope R14, R15): every value is an unsigned bit vector,
bit 0 the least significant. -/

namespace Sys2Proof

/-- `u8`: a duty, the tick counter, a group handle, one pin-group register (R5, R6). -/
abbrev Byte := BitVec 8

/-- `u32`: a command word and every word of the register window (R47, R67). -/
abbrev Word := BitVec 32

/-- A pin's number within its group, `u3` (R6, R27). -/
abbrev PinIndex := BitVec 3

end Sys2Proof
end

