-- ==== Sys2Proof/Config.lean ====
section
/-! DEFINITION. The implementation parameters of 00_scope section 3, fixed for a run (10_state R40), and the one free
value of the model: the draw of the stale window (41_scheduler R89). -/

namespace Sys2Proof

/-- The configuration of one block. TICK_PERIOD (R10) is read by no rule and is not held. -/
structure Config where
  /-- CAPACITY, 1..12 (R4). -/
  capacity : Nat
  /-- NUM_GROUPS, 1..256 (R7). -/
  numGroups : Nat
  /-- HW_PWM_PINS, the (group, bit) pins Hardware PWM Init drives (R9). -/
  hwPwmPins : List (Byte × PinIndex)
  /-- BASE, the bus address of the window, 64-byte aligned (R8). -/
  base : Nat
  /-- PIN_INIT.EN: the reset value of EN[g] for each g (10_state R36). -/
  pinInitEn : List Byte
  /-- PIN_INIT.LVL: the reset value of LVL[g] for each g (10_state R37). -/
  pinInitLvl : List Byte
  deriving DecidableEq, Repr

/-- The ranges 00_scope gives the parameters: R4, R7, R8, and one PIN_INIT byte for every group (R36, R37). -/
structure Config.Ok (c : Config) : Prop where
  capacity_pos : 1 ≤ c.capacity
  capacity_le : c.capacity ≤ 12
  groups_pos : 1 ≤ c.numGroups
  groups_le : c.numGroups ≤ 256
  base_aligned : c.base % 64 = 0
  en_length : c.pinInitEn.length = c.numGroups
  lvl_length : c.pinInitLvl.length = c.numGroups

/-- The configuration of the spec's test vectors (95_test_vectors, opening paragraph): CAPACITY = 8, NUM_GROUPS = 4,
HW_PWM_PINS = (3,0) and (3,1), every PIN_INIT byte 0x00. DESIGN CHOICE (log 1): the reset state is given with it, and
BASE, which the vectors leave open, is 0. unsafe: a claim about `State.reset` alone rests on these values. -/
def Config.vectors : Config where
  capacity := 8
  numGroups := 4
  hwPwmPins := [(3, 0), (3, 1)]
  base := 0
  pinInitEn := [0, 0, 0, 0]
  pinInitLvl := [0, 0, 0, 0]

/-- FREE VALUE (log 11): the n-th `draw` of a stale window (R87, R89, R99) takes the old duty when this is true and the
new duty when it is false. It has no body, so a claim holds for every choice (10_state R42). safe. -/
opaque Config.staleDraw : Nat → Bool

end Sys2Proof
end

