-- ==== Sys2Proof/Syntax.lean ====
section
/-! DEFINITION. The instructions: one constructor for each row of spec/opcode_table.json. -/

namespace Sys2Proof

/-- The commands a word written to CMD can decode to, and the tick source's event (30_encoding R68 to R71, R75). -/
inductive Instr where
  /-- REGISTER: `e` the enable-control handle, `l` the level-control handle, `p` the pin (R68, R81). -/
  | register (e l : Byte) (p : PinIndex)
  /-- SET_DUTY: `i` the channel index, `v` the new duty (R69, R84). -/
  | setDuty (i v : Byte)
  /-- TICK: the timer overflow event, no operand (R70, R89). -/
  | tick
  /-- SET_CTRL: `t` the new value of TEN (R71, R100). -/
  | setCtrl (t : BitVec 1)
  /-- ILLEGAL: a word `w` that decodes to no command (R102). -/
  | illegal (w : Word)
  deriving DecidableEq, Repr

end Sys2Proof
end

