-- ==== Sys2Proof/WellFormed.lean ====
section
/-! DEFINITION. Which instructions a block with `n` pin groups can be asked to run (30_encoding R73, R75, R76). -/

namespace Sys2Proof

/-- A REGISTER word with the opcode and the reserved bits as R68 has them and both groups below NUM_GROUPS (R73, first
arm of R75). -/
def isRegisterWord (n : Nat) (w : Word) : Bool :=
  w.extractLsb' 24 8 == 0x01#8 && w.extractLsb' 3 5 == 0#5
    && decide ((w.extractLsb' 16 8).toNat < n) && decide ((w.extractLsb' 8 8).toNat < n)

/-- A SET_DUTY word (R69, second arm of R75). -/
def isSetDutyWord (w : Word) : Bool :=
  w.extractLsb' 24 8 == 0x02#8 && w.extractLsb' 8 8 == 0#8

/-- A SET_CTRL word (R71, third arm of R75). -/
def isSetCtrlWord (w : Word) : Bool :=
  w.extractLsb' 24 8 == 0x04#8 && w.extractLsb' 1 23 == 0#23

/-- A word that R75 decodes to no command, of a block with `n` pin groups (R102). -/
def isIllegalWord (n : Nat) (w : Word) : Bool :=
  !isRegisterWord n w && !isSetDutyWord w && !isSetCtrlWord w

/-- Well-formed for a block with `n` pin groups: a REGISTER names groups that exist (R73), and an ILLEGAL carries a word
that is no command (R102). Every SET_DUTY is well-formed, an index of no channel too (R74). -/
def Instr.wf (n : Nat) : Instr → Bool
  | .register e l _ => decide (e.toNat < n) && decide (l.toNat < n)
  | .setDuty _ _ => true
  | .tick => true
  | .setCtrl _ => true
  | .illegal w => isIllegalWord n w

end Sys2Proof
end

