-- ==== Sys2Proof/Decode.lean ====
section
/-! DEFINITION. Decoding and encoding of the command word (30_encoding R67 to R77), and the byte order of a window word
(20_memory R52). There are two readings of a word: `decode` is the block's, of a word the host writes to CMD (R75), and
`decodeTrace` is that of a trace, in which the word 0x03000000 is the tick source's event (R70, R80; log 6). -/

namespace Sys2Proof

/-- OP, bits [31:24] of a command word (R67). -/
def Word.op (w : Word) : Byte := w.extractLsb' 24 8
/-- EGRP, bits [23:16] of format R (R68, R72). -/
def Word.egrp (w : Word) : Byte := w.extractLsb' 16 8
/-- LGRP, bits [15:8] of format R (R68, R72). -/
def Word.lgrp (w : Word) : Byte := w.extractLsb' 8 8
/-- PIN, bits [2:0] of format R (R68, R72). -/
def Word.pin (w : Word) : PinIndex := w.extractLsb' 0 3
/-- INDEX, bits [23:16] of format D (R69, R72). -/
def Word.index (w : Word) : Byte := w.extractLsb' 16 8
/-- VALUE, bits [7:0] of format D (R69, R72). -/
def Word.value (w : Word) : Byte := w.extractLsb' 0 8
/-- T, bit [0] of format C (R71, R72). -/
def Word.tenBit (w : Word) : BitVec 1 := w.extractLsb' 0 1

/-- The command a word written to CMD executes, on a block with `n` pin groups: the arms of R75 in their order, the
first that matches taken. Total on every word (R77). -/
def decode (n : Nat) (w : Word) : Instr :=
  if Word.op w = 0x01 ∧ w.extractLsb' 3 5 = 0#5 ∧ (Word.egrp w).toNat < n ∧ (Word.lgrp w).toNat < n then
    .register (Word.egrp w) (Word.lgrp w) (Word.pin w)
  else if Word.op w = 0x02 ∧ w.extractLsb' 8 8 = 0#8 then
    .setDuty (Word.index w) (Word.value w)
  else if Word.op w = 0x04 ∧ w.extractLsb' 1 23 = 0#23 then
    .setCtrl (Word.tenBit w)
  else
    .illegal w

/-- The event code that names the timer overflow in a trace (R70). -/
def tickCode : Word := 0x03000000

/-- A word of a trace: 0x03000000 is the TICK event (R70, R80), every other word is read as the block reads it. -/
def decodeTrace (n : Nat) (w : Word) : Instr :=
  if w = tickCode then .tick else decode n w

/-- The word of an instruction: formats R, D, T and C (R68 to R71); an ILLEGAL's word is the one it carries. -/
def encode : Instr → Word
  | .register e l p => 0x01#8 ++ e ++ l ++ 0#5 ++ p
  | .setDuty i v => 0x02#8 ++ i ++ 0#8 ++ v
  | .tick => tickCode
  | .setCtrl t => 0x04#8 ++ 0#23 ++ t
  | .illegal w => w

/-- Byte `k` of a window word, bits [8k+7:8k] (R52). -/
def wordByte (w : Word) (k : Nat) : Byte := w.extractLsb' (8 * k) 8

/-- The four bytes of a word as a byte-addressed host lays them out, lowest address first: little-endian (R52). -/
def bytesOfWord (w : Word) : List Byte := [wordByte w 0, wordByte w 1, wordByte w 2, wordByte w 3]

/-- The word of four bytes in address order (R52). -/
def wordOfBytes (b0 b1 b2 b3 : Byte) : Word := b3 ++ b2 ++ b1 ++ b0

/-- Why a list of bytes is not read as a trace word. -/
inductive DecodeError where
  /-- Fewer than the four bytes every command has (R67). safe: nothing is decoded. -/
  | truncated
  deriving DecidableEq, Repr

/-- Read one word of a trace from bytes in address order, with the bytes that follow it. Every command is four bytes
long (R67), and no word of four bytes is refused (R77). -/
def decodeBytes (n : Nat) : List Byte → Except DecodeError (Instr × List Byte)
  | b0 :: b1 :: b2 :: b3 :: rest => .ok (decodeTrace n (wordOfBytes b0 b1 b2 b3), rest)
  | _ => .error .truncated

/-- The bytes of an instruction's word in address order. -/
def encodeBytes (i : Instr) : List Byte := bytesOfWord (encode i)

/-- The word whose low `nbits` bits are those of `w` and whose other bits are zero. -/
def tableWord (nbits w : Nat) : Word := BitVec.ofNat 32 (w % 2 ^ nbits)

/-- What the trace decoder reads from a table row's word, laid out in its byte order, on the block of the vectors'
configuration (log 6). -/
def decodeTableWord (nbits w : Nat) : Option Instr :=
  match decodeBytes Config.vectors.numGroups (bytesOfWord (tableWord nbits w)) with
  | .ok (i, _) => some i
  | .error _ => none

end Sys2Proof
end

