-- ==== Sys2Proof/Machine/Flags.lean ====
section
/-! DEFINITION. The block has no condition flags (10_state R41). What a command reports is the word it writes to RESULT,
and these are the words of R32 and 60_exceptions R106. -/

namespace Sys2Proof.Machine

/-- The outcome codes of RESULT.CODE (R32, R106). -/
inductive ResultCode where
  /-- The command succeeded. -/
  | ok
  /-- RegistryFull (R83). -/
  | full
  /-- InvalidChannelIndex (R84). -/
  | invalidIndex
  /-- The word decodes to no command (R102). -/
  | illegal
  deriving DecidableEq, Repr

/-- RESULT.CODE as its two bits (R32). -/
def codeBits : ResultCode → BitVec 2
  | .ok => 0
  | .full => 1
  | .invalidIndex => 2
  | .illegal => 3

/-- The word of R32: VALUE in [7:0], CODE in [9:8], DONE in [10], zero above. -/
def resultWord (code : ResultCode) (value : Byte) : Word := 0#21 ++ 1#1 ++ codeBits code ++ value

/-- OK with a value: 0x00000400 | value (R106). -/
def resultOk (value : Byte) : Word := resultWord .ok value
/-- FULL: 0x000005FF (R83, R106). -/
def resultFull : Word := resultWord .full 0xFF
/-- INVALID_INDEX: 0x000006FF (R84, R106). -/
def resultInvalidIndex : Word := resultWord .invalidIndex 0xFF
/-- ILLEGAL: 0x000007FF (R102, R106). -/
def resultIllegal : Word := resultWord .illegal 0xFF

end Sys2Proof.Machine
end

