-- ==== Sys2Proof/Machine/Event.lean ====
section
/-! DEFINITION. What the two agents of 00_scope R11 can do to the block: the host's bus operations (20_memory R51, R57)
and the tick source's event (60_exceptions R110), and what the host observes of a read (30_encoding R78). -/

namespace Sys2Proof.Machine

/-- The two register arrays of the pin-group space (10_state R36, R37). -/
inductive PinReg where
  /-- EN, the output-enable registers. -/
  | en
  /-- LVL, the output-level registers. -/
  | lvl
  deriving DecidableEq, Repr

/-- One bus operation of the host. Addresses, sizes and group numbers are plain numbers: an access the block does not
accept can be written down too, and is then refused (60_exceptions R108; log 15). -/
inductive HostOp where
  /-- `MemRead(a, n)`: read `n` bytes at bus address `a` (R51, R53). -/
  | memRead (a n : Nat)
  /-- `MemWrite(a, n, v)`: write `v` as `n` bytes at bus address `a` (R51, R55). -/
  | memWrite (a n : Nat) (v : Word)
  /-- `PinRead(EN|LVL, g)` (R57). -/
  | pinRead (r : PinReg) (g : Nat)
  /-- `PinWrite(EN|LVL, g, v)` (R57). -/
  | pinWrite (r : PinReg) (g : Nat) (v : Byte)
  deriving DecidableEq, Repr

/-- One step of a program: a host operation, or one timer overflow event (30_encoding R78). -/
inductive Event where
  /-- The host issues a bus operation. -/
  | host (op : HostOp)
  /-- The tick source fires TICK. -/
  | tick
  deriving DecidableEq, Repr

/-- What a read gives the host: a window word (20_memory R53) or a pin-group byte (R57). -/
inductive Observation where
  /-- The word of a window read. -/
  | word (w : Word)
  /-- The byte of a pin-group read. -/
  | byte (b : Byte)
  deriving DecidableEq, Repr

end Sys2Proof.Machine
end

