-- ==== Sys2Proof/Machine/State.lean ====
section
/-! DEFINITION. The state of the block (10_state R20): the architectural state the spec lists, the model mark FAULTS, the
configuration it runs under (R40), and the model's own fields that carry what R42 makes inputs of the step relation. -/

namespace Sys2Proof.Machine

/-- The fault reasons of 60_exceptions R107. A REGISTER raises one by appending it to FAULTS; a step of a state whose
FAULTS is not empty answers `Outcome.fault` with the first reason recorded (log 7). -/
inductive Fault where
  /-- Raised by REGISTER with TEN = 1 (40_registry R85). safe: the state it leaves has no further step. -/
  | registerWhileTicking
  /-- Raised by REGISTER of a pin of HW_PWM_PINS (40_registry R86). safe: the state it leaves has no further step. -/
  | pinAlias
  deriving DecidableEq, Repr

/-- Why a step has no meaning: the refusals of 60_exceptions R108, and the model's own. -/
inductive Refusal where
  /-- Kept for an arm of exec without a meaning. Raised by nobody: every instruction has its meaning. safe. -/
  | notModelled (mnemonic : String)
  /-- BusWidth: a window access of a size other than 4 bytes (R51, R108). safe. -/
  | busWidth
  /-- BusMisaligned: a window access at an offset that is not a multiple of 4 (R51, R108). safe. -/
  | busMisaligned
  /-- NoSuchGroup: a pin-group access with a group not below NUM_GROUPS (R57, R108). safe. -/
  | noSuchGroup
  /-- A bus access outside the window, of which this spec says nothing (20_memory R47; log 9). safe. -/
  | outsideWindow
  /-- A TICK placed where TEN = 0: no such step exists (42_control R101, 60_exceptions R113; log 10). safe. -/
  | tickWhileDisabled
  deriving DecidableEq, Repr

/-- One registry entry (10_state R24 to R29). -/
structure Channel where
  /-- EGRP, the pin group whose EN register enables the channel's pin (R25). -/
  egrp : Byte
  /-- LGRP, the pin group whose LVL register holds the channel's level (R26). -/
  lgrp : Byte
  /-- PIN, the bit within the group (R27). -/
  pin : PinIndex
  /-- DUTY (R28). -/
  duty : Byte
  /-- STALE: the next TICK may use DPREV (R29). -/
  stale : Bool
  /-- DPREV: the duty in force at the last tick, while STALE (R29). -/
  dprev : Byte
  deriving DecidableEq, Repr

/-- What a registry entry holds at reset. STALE and DPREV are the spec's (70_reset R125); the other four fields are
unspecified and never observable (10_state R35), and DESIGN CHOICE (log 12) makes them 0. unsafe only for a claim
that names a field of an unfilled entry. -/
def Channel.blank : Channel where
  egrp := 0
  lgrp := 0
  pin := 0
  duty := 0
  stale := false
  dprev := 0

/-- The state of the machine. -/
structure State where
  /-- The configuration, fixed for a run (R40; log 2). -/
  cfg : Config
  /-- COUNT, the number of registered channels (R23). -/
  count : BitVec 4
  /-- The registry: CAPACITY entries (R24). -/
  channels : List Channel
  /-- TCNT, the shared tick counter (R30). -/
  tcnt : Byte
  /-- TEN, the tick enable (R31). -/
  ten : BitVec 1
  /-- RESULT, the outcome of the last command (R32). -/
  result : Word
  /-- EN[g], the output-enable registers (R36). -/
  en : List Byte
  /-- LVL[g], the output-level registers (R37). -/
  lvl : List Byte
  /-- FAULTS, the model's mark (R39). -/
  faults : List Fault
  /-- MODEL'S OWN: the host operations and TICK events yet to come, one interleaving of the two agents (R42; log 3). -/
  inputs : List Event
  /-- MODEL'S OWN: what the host's reads returned, oldest first (30_encoding R78; log 14). -/
  observed : List Observation
  /-- MODEL'S OWN: how many draws were made, the argument of the next free value (log 11). -/
  draws : Nat
  deriving DecidableEq, Repr

/-- The state right after reset under a configuration (70_reset R125). `inputs`, `observed` and `draws` are the model's
own: nothing is placed, nothing was observed and no draw was made (DESIGN CHOICE, log 3, log 11, log 14). -/
def State.resetWith (c : Config) : State where
  cfg := c
  count := 0
  channels := List.replicate c.capacity Channel.blank
  tcnt := 0
  ten := 0
  result := 0
  en := c.pinInitEn
  lvl := c.pinInitLvl
  faults := []
  inputs := []
  observed := []
  draws := 0

/-- The state right after reset under the configuration of the spec's vectors (95_test_vectors; log 1). -/
def State.reset : State := State.resetWith Config.vectors

end Sys2Proof.Machine
end

