-- ==== Sys2Proof/Machine/Ops.lean ====
section
/-! DEFINITION. The named operations over the registry, the pin-group space and RESULT that every meaning is written in,
raising a model fault (60_exceptions R107), and the views that hold no storage (10_state R33, R34, R38). -/

namespace Sys2Proof.Machine

/-- The answer of a meaning or of a step. -/
abbrev Answer := Host.Outcome State Fault Refusal

/-! ### Bits -/

/-- `SetBit(v, b, x)`: `v` with bit `b` replaced by `x` (00_scope R16). -/
def setBit (v : Byte) (b : PinIndex) (x : Bool) : Byte :=
  (v &&& ~~~(1#8 <<< b.toNat)) ||| ((if x then 1#8 else 0#8) <<< b.toNat)

/-- Bit `b` of a pin-group byte (00_scope R14). -/
def bitOf (v : Byte) (b : PinIndex) : Bool := v.getLsbD b.toNat

/-! ### The registry -/

/-- Entry `i` of the registry (10_state R24). Beyond the registry it reads as a blank entry; no rule reads there, for
every reader first checks `i < COUNT` (R35; log 18). -/
def State.channel (s : State) (i : Nat) : Channel := s.channels[i]?.getD Channel.blank

/-- Replace entry `i` of the registry. -/
def State.setChannel (s : State) (i : Nat) (c : Channel) : State := { s with channels := s.channels.set i c }

/-- Entry `i` is valid exactly when `i < COUNT` (R24). -/
def State.isValid (s : State) (i : Nat) : Bool := decide (i < s.count.toNat)

/-! ### The pin-group space -/

/-- The register array a name stands for (R36, R37). -/
def State.pinArray (s : State) : PinReg → List Byte
  | .en => s.en
  | .lvl => s.lvl

/-- EN[g] or LVL[g]. Beyond NUM_GROUPS it reads 0; a host access there is refused before it reads (R57; log 18). -/
def State.pinByte (s : State) (r : PinReg) (g : Nat) : Byte := (s.pinArray r)[g]?.getD 0

/-- Replace EN[g] or LVL[g] whole. -/
def State.setPinByte (s : State) (r : PinReg) (g : Nat) (v : Byte) : State :=
  match r with
  | .en => { s with en := s.en.set g v }
  | .lvl => { s with lvl := s.lvl.set g v }

/-- The block's write to the pin-group space: one bit changes, the other 7 stay (20_memory R59). -/
def State.drivePinBit (s : State) (r : PinReg) (g : Nat) (b : PinIndex) (x : Bool) : State :=
  s.setPinByte r g (setBit (s.pinByte r g) b x)

/-- The form of the pin-group space, the only memory the block has (R46, R50): exactly NUM_GROUPS bytes of each array
(R36, R37; log 16). -/
def Memory.wf (s : State) : Bool := s.en.length == s.cfg.numGroups && s.lvl.length == s.cfg.numGroups

/-- The level the block gives pin `b` of group `g` (10_state R38): LVL's bit where EN's bit is 1; none where the pin is
not driven, and none for a pin of HW_PWM_PINS, of which the spec gives no level. -/
def State.pinLevel (s : State) (g : Byte) (b : PinIndex) : Option Bool :=
  if (g, b) ∈ s.cfg.hwPwmPins then none
  else if bitOf (s.pinByte .en g.toNat) b then some (bitOf (s.pinByte .lvl g.toNat) b)
  else none

/-! ### Completing a command, raising a fault, observing a read -/

/-- A command completes: it writes the whole of RESULT as its last effect (10_state R32, 42_control R103). -/
def complete (r : Word) (s : State) : Answer := .next { s with result := r }

/-- `raise Fault(r)` (60_exceptions R107): the reason is appended to FAULTS and no other effect of the step happens. The
state that results has no further step (`step` answers its fault; log 7). -/
def raise (r : Fault) (s : State) : Answer := .next { s with faults := s.faults ++ [r] }

/-- A read of the host returns a value and changes nothing of the block (20_memory R54): the value is added to what the
host has observed (log 14). -/
def observe (o : Observation) (s : State) : Answer := .next { s with observed := s.observed ++ [o] }

/-! ### Views -/

/-- STATUS (10_state R33). -/
def State.status (s : State) : Word :=
  0#4 ++ BitVec.ofNat 4 s.cfg.capacity ++ 0#7 ++ s.ten ++ s.tcnt ++ 0#4 ++ s.count

/-- The word a valid entry shows in its CHAN slot (10_state R34). -/
def chanWord (c : Channel) : Word := 1#1 ++ 0#4 ++ c.pin ++ c.lgrp ++ c.egrp ++ c.duty

/-- CHAN[i]: the entry where it is valid, 0 where it is not, a slot at or beyond CAPACITY included (R34, 20_memory R49). -/
def State.chan (s : State) (i : Nat) : Word := if s.isValid i then chanWord (s.channel i) else 0

end Sys2Proof.Machine
end

