-- ==== Sys2Proof/Machine/Operands.lean ====
section
/-! DEFINITION. The operand forms. A command's operands are fields of its word and need no more than the checks below
(30_encoding R72); the operand of a host access is a bus address of the register window (20_memory R48, R51) or a
pin group (R57). -/

namespace Sys2Proof.Machine

/-- REGISTER's alias check: (e, p) or (l, p) is a pin of HW_PWM_PINS (40_registry R81, R86). -/
def aliasesHwPin (c : Config) (e l : Byte) (p : PinIndex) : Bool :=
  decide ((e, p) ∈ c.hwPwmPins) || decide ((l, p) ∈ c.hwPwmPins)

/-- SET_DUTY's index names a channel exactly when it is below COUNT (40_registry R84). -/
def namesChannel (s : State) (i : Byte) : Bool := s.isValid i.toNat

/-- The registers of the window (20_memory R48). -/
inductive WindowReg where
  /-- CMD, offset 0x00. -/
  | cmd
  /-- RESULT, offset 0x04. -/
  | result
  /-- STATUS, offset 0x08. -/
  | status
  /-- Reserved, offset 0x0C. -/
  | reserved
  /-- CHAN[i], offset 0x10 + 4*i. -/
  | chan (i : Nat)
  deriving DecidableEq, Repr

/-- The register at a word-aligned offset of the window (20_memory R48). -/
def windowReg (off : Nat) : WindowReg :=
  if off = 0x00 then .cmd
  else if off = 0x04 then .result
  else if off = 0x08 then .status
  else if off = 0x0C then .reserved
  else .chan ((off - 0x10) / 4)

/-- The check of a host access of `n` bytes at bus address `a`: the offset within the window, or why the access is
refused, the width before the alignment (20_memory R51). Outside the window the spec says nothing (R47; log 9). -/
def busCheck (c : Config) (a n : Nat) : Except Refusal Nat :=
  if a < c.base ∨ c.base + 0x40 ≤ a then .error .outsideWindow
  else if n ≠ 4 then .error .busWidth
  else if (a - c.base) % 4 ≠ 0 then .error .busMisaligned
  else .ok (a - c.base)

/-- The check of a host access to a pin group (20_memory R57). -/
def groupCheck (c : Config) (g : Nat) : Except Refusal Nat :=
  if c.numGroups ≤ g then .error .noSuchGroup else .ok g

end Sys2Proof.Machine
end

