-- ==== Sys2Proof/Machine/Control.lean ====
section
/-! DEFINITION. The control commands SET_CTRL and ILLEGAL (42_control R100 to R104). -/

namespace Sys2Proof.Machine

/-- SET_CTRL (42_control R100): TEN takes the new value; RESULT is OK with VALUE 0. -/
def execSetCtrl (t : BitVec 1) (s : State) : Answer := complete (resultOk 0) { s with ten := t }

/-- ILLEGAL (42_control R102): a defined no-op that writes RESULT; the word has no other effect. -/
def execIllegal (_w : Word) (s : State) : Answer := complete resultIllegal s

end Sys2Proof.Machine
end

