-- ==== Sys2Proof/Machine/Registry.lean ====
section
/-! DEFINITION. The channel registry commands REGISTER and SET_DUTY (40_registry R81 to R88). -/

namespace Sys2Proof.Machine

/-- The entry a successful REGISTER fills (40_registry R81). -/
def newChannel (e l : Byte) (p : PinIndex) : Channel where
  egrp := e
  lgrp := l
  pin := p
  duty := 0
  stale := false
  dprev := 0

/-- The effect of a successful REGISTER on everything but RESULT: entry COUNT filled, EN[e] bit p set, COUNT one more
(40_registry R81). The handles are used as written, whether or not they name one group (R82). -/
def appendChannel (e l : Byte) (p : PinIndex) (s : State) : State :=
  { (s.setChannel s.count.toNat (newChannel e l p)).drivePinBit .en e.toNat p true with count := s.count + 1 }

/-- REGISTER (40_registry R81), its outcomes in the order of 60_exceptions R109: RegisterWhileTicking, FULL, PinAlias,
OK with the new index. -/
def execRegister (e l : Byte) (p : PinIndex) (s : State) : Answer :=
  if s.ten = 1 then raise .registerWhileTicking s
  else if s.count.toNat = s.cfg.capacity then complete resultFull s
  else if aliasesHwPin s.cfg e l p then raise .pinAlias s
  else complete (resultOk (s.count.zeroExtend 8)) (appendChannel e l p s)

/-- The entry after its duty is overwritten: while ticks are enabled the duty in force is kept in DPREV and the stale
window opens, unless it is open already (40_registry R84, R87). -/
def changeDuty (ten : BitVec 1) (v : Byte) (c : Channel) : Channel :=
  if ten = 1 ∧ c.stale = false then { c with dprev := c.duty, stale := true, duty := v }
  else { c with duty := v }

/-- SET_DUTY (40_registry R84): INVALID_INDEX with no other effect, or OK with the index. -/
def execSetDuty (i v : Byte) (s : State) : Answer :=
  if namesChannel s i then
    complete (resultOk i) (s.setChannel i.toNat (changeDuty s.ten v (s.channel i.toNat)))
  else complete resultInvalidIndex s

end Sys2Proof.Machine
end

