-- ==== Sys2Proof/Machine/Scheduler.lean ====
section
/-! DEFINITION. The tick (41_scheduler R89 to R99). -/

namespace Sys2Proof.Machine

/-- The duty a TICK compares against for an entry: with the stale window open a draw takes DPREV or DUTY, else DUTY
(41_scheduler R89, 40_registry R87). The draw is a free value (log 11). -/
def dutyInForce (draws : Nat) (c : Channel) : Byte :=
  if c.stale && Config.staleDraw draws then c.dprev else c.duty

/-- TICK's loop body for entry `i` (41_scheduler R89): the duty in force is chosen, STALE is cleared, and the level bit
is driven to (TCNT < d), an unsigned compare with the counter already incremented (R90). Each draw uses its own free
value, so `draws` advances exactly where one was made. -/
def driveChannel (s : State) (i : Nat) : State :=
  let c := s.channel i
  let s' := { s with draws := if c.stale then s.draws + 1 else s.draws }
  (s'.setChannel i { c with stale := false }).drivePinBit .lvl c.lgrp.toNat c.pin
    (decide (s.tcnt < dutyInForce s.draws c))

/-- TICK's loop over entries 0 .. n-1 in index order (41_scheduler R89, R92). -/
def driveChannels : Nat → State → State
  | 0, s => s
  | n + 1, s => driveChannel (driveChannels n s) n

/-- TICK's first step: the counter advances, wrapping modulo 256 (41_scheduler R89, 10_state R30). -/
def advanceCounter (s : State) : State := { s with tcnt := s.tcnt + 1 }

/-- The whole effect of one TICK (41_scheduler R89, R91): the increment, then the loop over the valid entries. -/
def tickEffect (s : State) : State := driveChannels s.count.toNat (advanceCounter s)

/-- TICK (41_scheduler R89): it completes in every state (R98). That it fires only while TEN = 1 is the tick source's
rule (`tickEvent`, 42_control R101), not TICK's. -/
def execTick (s : State) : Answer := .next (tickEffect s)

end Sys2Proof.Machine
end

