-- ==== Sys2Proof/Machine/Dispatch.lean ====
section
/-! DEFINITION. exec: one arm per constructor of Instr, each one call of the instruction's meaning. -/

namespace Sys2Proof.Machine

def exec (i : Instr) (s : State) : Host.Outcome State Fault Refusal :=
  match i with
  | .register e l p => Sys2Proof.Machine.execRegister e l p s
  | .setDuty j v => Sys2Proof.Machine.execSetDuty j v s
  | .tick => Sys2Proof.Machine.execTick s
  | .setCtrl t => Sys2Proof.Machine.execSetCtrl t s
  | .illegal w => Sys2Proof.Machine.execIllegal w s

end Sys2Proof.Machine
end

