-- ==== Sys2Proof/Machine/Bus.lean ====
section
/-! DEFINITION. The steps of the two agents (00_scope R11, R12): the host's accesses to the register window and to the
pin-group space (20_memory R46 to R58), the tick source's event (42_control R101, 60_exceptions R113), and what the
machine does with the next event of its inputs. -/

namespace Sys2Proof.Machine

/-- The word a window register shows to a read (20_memory R53). -/
def windowWord (s : State) : WindowReg → Word
  | .cmd => 0
  | .result => s.result
  | .status => s.status
  | .reserved => 0
  | .chan i => s.chan i

/-- A write of `v` to a window register: a write to CMD executes the command of R75 in the same step, a write to any
other register changes nothing (20_memory R55, R56). -/
def windowWrite (v : Word) (s : State) : WindowReg → Answer
  | .cmd => exec (decode s.cfg.numGroups v) s
  | .result => .next s
  | .status => .next s
  | .reserved => .next s
  | .chan _ => .next s

/-- `MemRead(a, n)` (20_memory R51, R53, R54). -/
def memRead (a n : Nat) (s : State) : Answer :=
  match busCheck s.cfg a n with
  | .error r => .refused r
  | .ok off => observe (.word (windowWord s (windowReg off))) s

/-- `MemWrite(a, n, v)` (20_memory R51, R55). -/
def memWrite (a n : Nat) (v : Word) (s : State) : Answer :=
  match busCheck s.cfg a n with
  | .error r => .refused r
  | .ok off => windowWrite v s (windowReg off)

/-- `PinRead(EN|LVL, g)` (20_memory R57). -/
def pinRead (r : PinReg) (g : Nat) (s : State) : Answer :=
  match groupCheck s.cfg g with
  | .error e => .refused e
  | .ok g => observe (.byte (s.pinByte r g)) s

/-- `PinWrite(EN|LVL, g, v)`: the whole byte is written, whatever channels use its bits (20_memory R57, R58). -/
def pinWrite (r : PinReg) (g : Nat) (v : Byte) (s : State) : Answer :=
  match groupCheck s.cfg g with
  | .error e => .refused e
  | .ok g => .next (s.setPinByte r g v)

/-- One step of the host (00_scope R11). -/
def hostStep (op : HostOp) (s : State) : Answer :=
  match op with
  | .memRead a n => memRead a n s
  | .memWrite a n v => memWrite a n v s
  | .pinRead r g => pinRead r g s
  | .pinWrite r g v => pinWrite r g v s

/-- One step of the tick source: TICK runs while TEN = 1, and while TEN = 0 no such step exists (42_control R101,
60_exceptions R113; log 10). -/
def tickEvent (s : State) : Answer := if s.ten = 1 then exec .tick s else .refused .tickWhileDisabled

/-- One step of either agent. -/
def eventStep (ev : Event) (s : State) : Answer :=
  match ev with
  | .host op => hostStep op s
  | .tick => tickEvent s

/-- The next step of the machine. A state whose FAULTS is not empty has no further step of either agent (60_exceptions
R107); else the next event of the inputs is taken out and happens, as one atomic step (00_scope R12); with no event
left nothing happens (log 4). -/
def nextStep (s : State) : Answer :=
  match s.faults with
  | r :: _ => .fault r
  | [] =>
    match s.inputs with
    | [] => .next s
    | ev :: rest => eventStep ev { s with inputs := rest }

/-- The state with an instruction placed as the machine's next event: the host writes the word to CMD, or, for the
code 0x03000000, the tick source fires, for which ticks must be enabled (30_encoding R78; log 5, log 6). -/
def placeWord (w : Word) (s : State) : State :=
  if w = tickCode then { s with inputs := .tick :: s.inputs, ten := 1 }
  else { s with inputs := .host (.memWrite s.cfg.base 4 w) :: s.inputs }

end Sys2Proof.Machine
end

