-- ==== Sys2Proof/Machine/Assembly.lean ====
section
/-! DEFINITION. The assembly syntax of a program (30_encoding R78), its pseudo-lines (R79), and the disassembler's
mnemonics (R80). A program's lines assemble to the events that stand in the machine's inputs; text is read as a list of
characters. -/

namespace Sys2Proof.Machine

/-- An offset operand: a number, or one of the names R78 gives. -/
inductive Offset where
  /-- A number. -/
  | number (n : Nat)
  /-- CMD = 0x00. -/
  | cmd
  /-- RESULT = 0x04. -/
  | result
  /-- STATUS = 0x08. -/
  | status
  /-- CHANi = 0x10 + 4*i. -/
  | chan (i : Nat)
  deriving DecidableEq, Repr

/-- The number an offset operand stands for (R78). -/
def offsetValue : Offset → Nat
  | .number n => n
  | .cmd => 0x00
  | .result => 0x04
  | .status => 0x08
  | .chan i => 0x10 + 4 * i

/-- One line of a program (R78), a pseudo-line (R79) included. -/
inductive Line where
  /-- `REG e, l, p`. -/
  | reg (e l p : Nat)
  /-- `DUTY i, v`. -/
  | duty (i v : Nat)
  /-- `CTRL t`. -/
  | ctrl (t : Nat)
  /-- `WR off, w`. -/
  | wr (off : Offset) (w : Nat)
  /-- `RD off`. -/
  | rd (off : Offset)
  /-- `PWE g, v`. -/
  | pwe (g v : Nat)
  /-- `PWL g, v`. -/
  | pwl (g v : Nat)
  /-- `PRE g`. -/
  | pre (g : Nat)
  /-- `PRL g`. -/
  | prl (g : Nat)
  /-- `TICK`. -/
  | tick
  /-- `TICKS n` (R79). -/
  | ticks (n : Nat)
  /-- `START` (R79). -/
  | start
  /-- `STOP` (R79). -/
  | stop
  /-- `NOPCMD` (R79). -/
  | nopcmd
  deriving DecidableEq, Repr

/-- A host write of a word at an offset of the window (R78). -/
def writeAt (base off w : Nat) : Event := .host (.memWrite (base + off) 4 (BitVec.ofNat 32 w))

/-- The word of `REG e, l, p` as the table of R78 has it. -/
def regWord (e l p : Nat) : Nat := 0x01 <<< 24 ||| e <<< 16 ||| l <<< 8 ||| p
/-- The word of `DUTY i, v` as the table of R78 has it. -/
def dutyWord (i v : Nat) : Nat := 0x02 <<< 24 ||| i <<< 16 ||| v
/-- The word of `CTRL t` as the table of R78 has it. -/
def ctrlWord (t : Nat) : Nat := 0x04 <<< 24 ||| t

/-- The events of a line on a block whose window is at `base`, or none where an operand is out of its range: e, l, g, i
and v are 0..255, p is 0..7, t is 0 or 1 and a raw word is 32 bits (R78). -/
def assembleLine (base : Nat) : Line → Option (List Event)
  | .reg e l p => if e < 256 ∧ l < 256 ∧ p < 8 then some [writeAt base 0 (regWord e l p)] else none
  | .duty i v => if i < 256 ∧ v < 256 then some [writeAt base 0 (dutyWord i v)] else none
  | .ctrl t => if t < 2 then some [writeAt base 0 (ctrlWord t)] else none
  | .wr off w => if w < 2 ^ 32 then some [writeAt base (offsetValue off) w] else none
  | .rd off => some [.host (.memRead (base + offsetValue off) 4)]
  | .pwe g v => if g < 256 ∧ v < 256 then some [.host (.pinWrite .en g (BitVec.ofNat 8 v))] else none
  | .pwl g v => if g < 256 ∧ v < 256 then some [.host (.pinWrite .lvl g (BitVec.ofNat 8 v))] else none
  | .pre g => if g < 256 then some [.host (.pinRead .en g)] else none
  | .prl g => if g < 256 then some [.host (.pinRead .lvl g)] else none
  | .tick => some [.tick]
  | .ticks n => some (List.replicate n .tick)
  | .start => some [writeAt base 0 (ctrlWord 1)]
  | .stop => some [writeAt base 0 (ctrlWord 0)]
  | .nopcmd => some [writeAt base 0 0x00000000]

/-- The events of a program, in the order of its lines (R79). -/
def assemble (base : Nat) : List Line → Option (List Event)
  | [] => some []
  | line :: rest =>
    match assembleLine base line, assemble base rest with
    | some evs, some more => some (evs ++ more)
    | _, _ => none

/-! ### Text (R78: numbers are decimal or 0x hexadecimal, `;` starts a comment; the rest is log 23) -/

/-- A blank between the words of a line. -/
def isBlank (c : Char) : Bool := c == ' ' || c == '\t' || c == '\r'

/-- Text without its leading and trailing blanks. -/
def trimBlanks (cs : List Char) : List Char := ((cs.dropWhile isBlank).reverse.dropWhile isBlank).reverse

/-- The pieces of a text between the occurrences of a character. -/
def splitAt (sep : Char) : List Char → List (List Char)
  | [] => [[]]
  | c :: cs =>
    if c == sep then [] :: splitAt sep cs
    else
      match splitAt sep cs with
      | [] => [[c]]
      | piece :: more => (c :: piece) :: more

/-- The value of a digit of a base up to 16, of either case. -/
def digitValue (radix : Nat) (c : Char) : Option Nat :=
  let n := c.toNat
  let v :=
    if 48 ≤ n ∧ n ≤ 57 then n - 48
    else if 65 ≤ n ∧ n ≤ 70 then n - 55
    else if 97 ≤ n ∧ n ≤ 102 then n - 87
    else 16
  if v < radix then some v else none

/-- The value of a digit sequence, most significant first, read on from `acc`. -/
def digitsValue (radix acc : Nat) : List Char → Option Nat
  | [] => some acc
  | c :: cs =>
    match digitValue radix c with
    | some v => digitsValue radix (radix * acc + v) cs
    | none => none

/-- A number, decimal or `0x` hexadecimal (R78). -/
def parseNumber : List Char → Option Nat
  | [] => none
  | '0' :: 'x' :: c :: cs => digitsValue 16 0 (c :: cs)
  | cs => digitsValue 10 0 cs

/-- An offset: a number or a name (R78). -/
def parseOffset (cs : List Char) : Option Offset :=
  if cs = ['C', 'M', 'D'] then some .cmd
  else if cs = ['R', 'E', 'S', 'U', 'L', 'T'] then some .result
  else if cs = ['S', 'T', 'A', 'T', 'U', 'S'] then some .status
  else
    match cs with
    | 'C' :: 'H' :: 'A' :: 'N' :: c :: rest =>
      match digitsValue 10 0 (c :: rest) with
      | some i => if i < 12 then some (.chan i) else none
      | none => none
    | _ => (parseNumber cs).map .number

/-- The line of a mnemonic and its operands' texts. -/
def parseOperands (name : List Char) (args : List (List Char)) : Option Line :=
  match name, args with
  | ['R', 'E', 'G'], [e, l, p] => do some (.reg (← parseNumber e) (← parseNumber l) (← parseNumber p))
  | ['D', 'U', 'T', 'Y'], [i, v] => do some (.duty (← parseNumber i) (← parseNumber v))
  | ['C', 'T', 'R', 'L'], [t] => do some (.ctrl (← parseNumber t))
  | ['W', 'R'], [off, w] => do some (.wr (← parseOffset off) (← parseNumber w))
  | ['R', 'D'], [off] => do some (.rd (← parseOffset off))
  | ['P', 'W', 'E'], [g, v] => do some (.pwe (← parseNumber g) (← parseNumber v))
  | ['P', 'W', 'L'], [g, v] => do some (.pwl (← parseNumber g) (← parseNumber v))
  | ['P', 'R', 'E'], [g] => do some (.pre (← parseNumber g))
  | ['P', 'R', 'L'], [g] => do some (.prl (← parseNumber g))
  | ['T', 'I', 'C', 'K'], [] => some .tick
  | ['T', 'I', 'C', 'K', 'S'], [n] => do some (.ticks (← parseNumber n))
  | ['S', 'T', 'A', 'R', 'T'], [] => some .start
  | ['S', 'T', 'O', 'P'], [] => some .stop
  | ['N', 'O', 'P', 'C', 'M', 'D'], [] => some .nopcmd
  | _, _ => none

/-- One line of text: no line where it holds only blanks or a comment, and none at all where it is no line of R78 or
R79. -/
def parseLine (text : List Char) : Option (Option Line) :=
  let body := trimBlanks (text.takeWhile fun c => c != ';')
  let name := body.takeWhile fun c => !isBlank c
  let rest := trimBlanks (body.dropWhile fun c => !isBlank c)
  if body = [] then some none
  else (parseOperands name (if rest = [] then [] else (splitAt ',' rest).map trimBlanks)).map some

/-- The lines of a program's text, or none where some line is no line of R78 or R79. -/
def parseLines : List (List Char) → Option (List Line)
  | [] => some []
  | text :: rest =>
    match parseLine text, parseLines rest with
    | some (some line), some more => some (line :: more)
    | some none, some more => some more
    | _, _ => none

/-- The events of a program given as text (R78). -/
def assembleText (base : Nat) (text : List Char) : Option (List Event) :=
  (parseLines (splitAt '\n' text)).bind (assemble base)

/-! ### The disassembler (R80) -/

/-- The hexadecimal digit of a nibble. -/
def hexDigit (v : BitVec 4) : Char := Nat.digitChar v.toNat |>.toUpper

/-- A word in 8 hexadecimal digits. -/
def hexWord (w : Word) : List Char := [7, 6, 5, 4, 3, 2, 1, 0].map fun k => hexDigit (w.extractLsb' (4 * k) 4)

/-- A number in decimal. -/
def decimal (n : Nat) : List Char := Nat.toDigits 10 n

/-- The line that writes an instruction's word, where the instruction is a command (R78, R80). -/
def lineOf : Instr → Option Line
  | .register e l p => some (.reg e.toNat l.toNat p.toNat)
  | .setDuty i v => some (.duty i.toNat v.toNat)
  | .tick => some .tick
  | .setCtrl t => some (.ctrl t.toNat)
  | .illegal _ => none

/-- The mnemonic of an instruction (R80). -/
def mnemonicText : Instr → List Char
  | .register e l p => ['R', 'E', 'G', ' '] ++ decimal e.toNat ++ [',', ' '] ++ decimal l.toNat ++ [',', ' '] ++ decimal p.toNat
  | .setDuty i v => ['D', 'U', 'T', 'Y', ' '] ++ decimal i.toNat ++ [',', ' '] ++ decimal v.toNat
  | .tick => ['T', 'I', 'C', 'K']
  | .setCtrl t => ['C', 'T', 'R', 'L', ' '] ++ decimal t.toNat
  | .illegal w => ['I', 'L', 'L', 'E', 'G', 'A', 'L', ' ', '0', 'x'] ++ hexWord w

/-- The disassembly of a word written to CMD: its R75 outcome (R80). -/
def disassemble (n : Nat) (w : Word) : List Char := mnemonicText (decode n w)

/-- The disassembly of a word of a trace, in which 0x03000000 is TICK (R80). -/
def disassembleTrace (n : Nat) (w : Word) : List Char := mnemonicText (decodeTrace n w)

end Sys2Proof.Machine
end

