-- ==== Sys2Proof/Safety.lean ====
section
/-! DEFINITION. What claims are stated in terms of: the invariant of the machine's state, reachable states, the placings of
TICKs a program admits (30_encoding R79), fair runs (60_exceptions R113), and what the host owes (R123). -/

namespace Sys2Proof.Machine

/-- FAULTS is empty, the premise of every claim about the chip (10_state R39, 60_exceptions R107). -/
def State.NoFault (s : State) : Prop := s.faults = []

/-- A word RESULT can hold (10_state R32, 60_exceptions R106): the reset value, or one of the outcome words. -/
def LegalResult (r : Word) : Prop :=
  r = 0x00000000 ∨ (∃ v : Byte, r = 0x00000400 ||| v.zeroExtend 32)
    ∨ r = 0x000005FF ∨ r = 0x000006FF ∨ r = 0x000007FF

/-- A registry entry as R25, R26 and R86 have every valid one: its groups exist, and neither pin it names is one of
HW_PWM_PINS. -/
structure Channel.Legal (cfg : Config) (c : Channel) : Prop where
  egrp_lt : c.egrp.toNat < cfg.numGroups
  lgrp_lt : c.lgrp.toNat < cfg.numGroups
  enable_not_hw : (c.egrp, c.pin) ∉ cfg.hwPwmPins
  level_not_hw : (c.lgrp, c.pin) ∉ cfg.hwPwmPins

/-- The invariant: the configuration is in its ranges, COUNT is at most CAPACITY (10_state R23), the registry has
CAPACITY entries (R24), the pin-group space has NUM_GROUPS bytes of each array (R36, R37), every valid entry is legal,
and RESULT holds a word of R32. -/
structure State.Inv (s : State) : Prop where
  cfg_ok : s.cfg.Ok
  count_le : s.count.toNat ≤ s.cfg.capacity
  registry_length : s.channels.length = s.cfg.capacity
  pins_wf : Memory.wf s = true
  entries_legal : ∀ i, i < s.count.toNat → (s.channel i).Legal s.cfg
  result_legal : LegalResult s.result

/-- The states a run reaches from reset under a configuration, for every interleaving of the two agents' events and
every sequence of draws (00_scope R12, 70_reset R127, 60_exceptions R124). -/
inductive Reachable (c : Config) : State → Prop where
  /-- Reset, with a program placed and the draws starting anywhere. -/
  | reset (evs : List Event) (n : Nat) : Reachable c { State.resetWith c with inputs := evs, draws := n }
  /-- One more step. -/
  | step {s t : State} : Reachable c s → step s = .next t → Reachable c t

/-- The host operation of an event, if it is one. -/
def hostOpOf : Event → Option HostOp
  | .host op => some op
  | .tick => none

/-- `evs` is the host's program with TICKs placed in it: one interleaving of the two agents (30_encoding R79,
60_exceptions R113, R114). -/
def PlacesTicks (program : List HostOp) (evs : List Event) : Prop := evs.filterMap hostOpOf = program

/-- An infinite run of the machine: state k+1 is the next state of the k-th event in state k. -/
def InfiniteRun (st : Nat → State) (ev : Nat → Event) : Prop :=
  ∀ k, (st k).NoFault ∧ eventStep (ev k) (st k) = .next (st (k + 1))

/-- The fairness of 60_exceptions R113, of an infinite run of a host whose program is `op 0`, `op 1`, ... (none from where
a finite program ends): where TEN stays 1 from some step on, infinitely many TICKs occur; and a host operation that is
enabled forever is eventually taken, so that from every step on the host's next operation is taken later or is, at some
later step, not enabled. `taken k` counts the host operations among the first k events. -/
structure FairRun (st : Nat → State) (ev : Nat → Event) (op : Nat → Option HostOp) (taken : Nat → Nat) : Prop where
  run : InfiniteRun st ev
  taken_zero : taken 0 = 0
  taken_next : ∀ k, (ev k = .tick ∧ taken (k + 1) = taken k)
    ∨ (∃ o, op (taken k) = some o ∧ ev k = .host o ∧ taken (k + 1) = taken k + 1)
  ticks_fair : ∀ k, (∀ j, k ≤ j → (st j).ten = 1) → ∀ j, ∃ m, j ≤ m ∧ ev m = .tick
  host_fair : ∀ k o, op (taken k) = some o →
    (∃ m, k ≤ m ∧ taken k < taken m) ∨ (∃ m, k ≤ m ∧ ∀ t, eventStep (.host o) (st m) ≠ .next t)

/-- When a command word has an outcome without a fault: every word but a REGISTER, and a REGISTER with TEN = 0 that finds
the registry full or names no pin of HW_PWM_PINS (40_registry R81, R83, R85, R86, 60_exceptions R109). R123 asks more of
the host (`CommandKeepsRules`). -/
def CommandHasOutcome (s : State) (w : Word) : Prop :=
  match decode s.cfg.numGroups w with
  | .register e l p => s.ten = 0 ∧ (s.count.toNat = s.cfg.capacity ∨ aliasesHwPin s.cfg e l p = false)
  | _ => True

/-- When a host operation is accepted and has an outcome without a fault: an aligned 4-byte access within the window
(20_memory R51; outside it log 9) or a pin group that exists (R57), and for a write to CMD the conditions of its word. -/
def HostOpHasOutcome (s : State) : HostOp → Prop
  | .memRead a n => n = 4 ∧ s.cfg.base ≤ a ∧ a < s.cfg.base + 0x40 ∧ (a - s.cfg.base) % 4 = 0
  | .memWrite a n v => n = 4 ∧ s.cfg.base ≤ a ∧ a < s.cfg.base + 0x40 ∧ (a - s.cfg.base) % 4 = 0
      ∧ (a = s.cfg.base → CommandHasOutcome s v)
  | .pinRead _ g => g < s.cfg.numGroups
  | .pinWrite _ g _ => g < s.cfg.numGroups

/-- What 60_exceptions R123 says the host must do with REGISTER: call it only with TEN = 0 and never name a pin of
HW_PWM_PINS, whether or not the registry is full. -/
def CommandKeepsRules (s : State) (w : Word) : Prop :=
  ∀ e l p, decode s.cfg.numGroups w = .register e l p →
    s.ten = 0 ∧ (e, p) ∉ s.cfg.hwPwmPins ∧ (l, p) ∉ s.cfg.hwPwmPins

/-- What 60_exceptions R123 says the host must do at its next operation, as far as the model sees it: an aligned 4-byte
access within the window (R108), a pin group that exists, and the rules of REGISTER. That the timer is configured before
TEN = 1 is not seen (log 25). -/
def HostKeepsRules (s : State) : HostOp → Prop
  | .memRead a n => n = 4 ∧ s.cfg.base ≤ a ∧ a < s.cfg.base + 0x40 ∧ (a - s.cfg.base) % 4 = 0
  | .memWrite a n v => n = 4 ∧ s.cfg.base ≤ a ∧ a < s.cfg.base + 0x40 ∧ (a - s.cfg.base) % 4 = 0
      ∧ (a = s.cfg.base → CommandKeepsRules s v)
  | .pinRead _ g => g < s.cfg.numGroups
  | .pinWrite _ g _ => g < s.cfg.numGroups

/-- A pin-group write that leaves the pins of HW_PWM_PINS as they are, which the host owes and the model does not check
(70_reset R141). -/
def LeavesHwPins (s : State) (r : PinReg) (g : Nat) (v : Byte) : Prop :=
  ∀ b : PinIndex, (BitVec.ofNat 8 g, b) ∈ s.cfg.hwPwmPins → bitOf v b = bitOf (s.pinByte r g) b

/-- No valid entry with a higher index uses entry `i`'s level bit (41_scheduler R92). -/
def TopOnItsBit (s : State) (i : Nat) : Prop :=
  ∀ j, i < j → j < s.count.toNat →
    ¬ ((s.channel j).lgrp = (s.channel i).lgrp ∧ (s.channel j).pin = (s.channel i).pin)

/-- The level bit of entry `i`: LVL[LGRP[i]][PIN[i]] (41_scheduler R93). -/
def levelOf (s : State) (i : Nat) : Bool := bitOf (s.pinByte .lvl (s.channel i).lgrp.toNat) (s.channel i).pin

/-- The state after `k` TICKs and nothing else. -/
def afterTicks : Nat → State → State
  | 0, s => s
  | k + 1, s => tickEffect (afterTicks k s)

/-- How many of the first `k` TICKs from `s` leave entry `i`'s level bit 1 (41_scheduler R94). -/
def highTicks (s : State) (i : Nat) : Nat → Nat
  | 0 => 0
  | k + 1 => highTicks s i k + (if levelOf (afterTicks (k + 1) s) i then 1 else 0)

/-- How many of the next `k` steps from `s` are TICKs after which `p` holds, whatever the host does between them. -/
def ticksWhere (p : State → Bool) : Nat → State → Nat
  | 0, _ => 0
  | k + 1, s =>
    match step s with
    | .next t => (if s.inputs.head? = some .tick ∧ p t = true then 1 else 0) + ticksWhere p k t
    | .fault _ => 0
    | .refused _ => 0

/-- An event that is no SET_DUTY to entry `i` and no REGISTER of another channel on entry `i`'s level bit (41_scheduler
R92, R94). -/
def LeavesChannel (s : State) (i : Nat) (ev : Event) : Prop :=
  ∀ w, ev = .host (.memWrite s.cfg.base 4 w) →
    (∀ j v, decode s.cfg.numGroups w = .setDuty j v → j.toNat ≠ i)
    ∧ ∀ e l p, decode s.cfg.numGroups w = .register e l p → ¬ (l = (s.channel i).lgrp ∧ p = (s.channel i).pin)

/-- Two states that differ only in what their unfilled registry entries hold (10_state R35). -/
structure SameFilled (s t : State) : Prop where
  rest : { s with channels := t.channels } = t
  length : s.channels.length = t.channels.length
  filled : ∀ i, i < s.count.toNat → s.channel i = t.channel i

end Sys2Proof.Machine
end

