-- ==== Sys2Proof/Certificates/Slice0/Obligations.lean ====
section
/-! DEFINITION. The statements for the provers. Each is about the machine, not about a program; its docstring names the
rule of spec/ it formalises, or says that it is derived. -/

open Sys2Proof Sys2Proof.Machine

/-! ### Reset -/

/-- 70_reset R125: what reset leaves, under every configuration. -/
def Obligations.ResetLeavesEveryField : Prop :=
  ∀ c : Config,
    (State.resetWith c).count = 0
    ∧ (∀ i, i < c.capacity →
        ((State.resetWith c).channel i).stale = false ∧ ((State.resetWith c).channel i).dprev = 0)
    ∧ (State.resetWith c).tcnt = 0 ∧ (State.resetWith c).ten = 0
    ∧ (State.resetWith c).result = 0x00000000 ∧ (State.resetWith c).faults = []
    ∧ (∀ g, g < c.numGroups →
        (State.resetWith c).pinByte .en g = c.pinInitEn[g]?.getD 0
        ∧ (State.resetWith c).pinByte .lvl g = c.pinInitLvl[g]?.getD 0)

/-- Derived (70_reset R126, which the spec derives from R125 and 10_state R32, R33, R34): what the views read after
reset of this hardware (CAPACITY = 8). -/
def Obligations.ResetViewsRead : Prop :=
  ∀ c : Config, c.capacity = 8 →
    (State.resetWith c).result = 0x00000000 ∧ (State.resetWith c).status = 0x08000000
    ∧ ∀ i, (State.resetWith c).chan i = 0x00000000

/-- Derived: the invariant holds at reset, under every configuration in its ranges. -/
def Obligations.ResetMeetsTheInvariant : Prop :=
  ∀ c : Config, c.Ok → (State.resetWith c).Inv

/-! ### Encoding -/

/-- Derived from R67 to R77: decoding the word of a well-formed instruction gives the instruction, for every operand. On
CMD the TICK event has no word (R70); in a trace the word 0x03000000 is TICK, so it is no ILLEGAL there (log 6). -/
def Obligations.DecodeOfEncodeIsTheInstruction : Prop :=
  (∀ (n : Nat) (i : Instr), i.wf n = true → i ≠ .tick → decode n (encode i) = i)
  ∧ (∀ (n : Nat) (i : Instr), i.wf n = true → i ≠ .illegal tickCode → decodeTrace n (encode i) = i)

/-- Derived from R77: every word decodes to a well-formed instruction, and no bit of the word is lost. -/
def Obligations.EncodeOfDecodeIsTheWord : Prop :=
  ∀ (n : Nat) (w : Word),
    encode (decode n w) = w ∧ (decode n w).wf n = true
    ∧ encode (decodeTrace n w) = w ∧ (decodeTrace n w).wf n = true

/-- 30_encoding R73, R75, R76: the outcome of every word written to CMD, with the fields written as quotients and
remainders of the word. -/
def Obligations.EveryWordHasOneOutcome : Prop :=
  ∀ (n : Nat) (w : Word),
    (w.toNat / 2 ^ 24 = 0x01 →
      if w.toNat / 2 ^ 3 % 2 ^ 5 = 0 ∧ w.toNat / 2 ^ 16 % 2 ^ 8 < n ∧ w.toNat / 2 ^ 8 % 2 ^ 8 < n then
        ∃ e l p, decode n w = .register e l p ∧ e.toNat = w.toNat / 2 ^ 16 % 2 ^ 8
          ∧ l.toNat = w.toNat / 2 ^ 8 % 2 ^ 8 ∧ p.toNat = w.toNat % 2 ^ 3
      else decode n w = .illegal w)
    ∧ (w.toNat / 2 ^ 24 = 0x02 →
      if w.toNat / 2 ^ 8 % 2 ^ 8 = 0 then
        ∃ i v, decode n w = .setDuty i v ∧ i.toNat = w.toNat / 2 ^ 16 % 2 ^ 8 ∧ v.toNat = w.toNat % 2 ^ 8
      else decode n w = .illegal w)
    ∧ (w.toNat / 2 ^ 24 = 0x04 →
      if w.toNat / 2 % 2 ^ 23 = 0 then ∃ t, decode n w = .setCtrl t ∧ t.toNat = w.toNat % 2
      else decode n w = .illegal w)
    ∧ (w.toNat / 2 ^ 24 ≠ 0x01 → w.toNat / 2 ^ 24 ≠ 0x02 → w.toNat / 2 ^ 24 ≠ 0x04 → decode n w = .illegal w)

/-- A few words of 95_test_vectors section 2.1, on a block with 4 groups (sanity). -/
def Obligations.WordsOfTheVectorsDecode : Prop :=
  decode 4 0x01010103 = .register 1 1 3 ∧ decode 4 0x01010108 = .illegal 0x01010108
  ∧ decode 4 0x01040100 = .illegal 0x01040100 ∧ decode 4 0x02000080 = .setDuty 0 128
  ∧ decode 4 0x020001FF = .illegal 0x020001FF ∧ decode 4 0x03000000 = .illegal 0x03000000
  ∧ decodeTrace 4 0x03000000 = .tick ∧ decode 4 0x04000001 = .setCtrl 1
  ∧ decode 4 0x04000002 = .illegal 0x04000002

/-- Derived: byte k of a word is bits [8k+7:8k], the lowest address first (20_memory R52), and the four bytes read back as
the word's instruction in a trace, the bytes after them left over (30_encoding R67, R70; log 6). -/
def Obligations.WordBytesAreLittleEndian : Prop :=
  ∀ w : Word,
    (∀ k, k < 4 → ∃ b : Byte, (bytesOfWord w)[k]? = some b ∧ b.toNat = w.toNat / 2 ^ (8 * k) % 2 ^ 8)
    ∧ ∀ (n : Nat) (rest : List Byte), decodeBytes n (bytesOfWord w ++ rest) = .ok (decodeTrace n w, rest)

/-- Derived from R78 and R80: the assembly line of a command assembles to the host's write of exactly its word to CMD, and
the TICK line to the tick source's event. -/
def Obligations.LinesAssembleToTheirWords : Prop :=
  ∀ (base : Nat) (i : Instr) (line : Line), lineOf i = some line →
    assembleLine base line
      = some [if i = .tick then .tick else .host (.memWrite base 4 (encode i))]

/-! ### A step runs the decoded instruction -/

/-- Derived (00_scope R12, 20_memory R55, R56, 42_control R101): a step with a host write to CMD as its next event is exec
of the instruction the word decodes to, the event taken out of the inputs; with a tick event and TEN = 1 it is exec of
TICK. -/
def Obligations.StepRunsTheDecodedInstruction : Prop :=
  ∀ (s : State) (rest : List Event), s.NoFault →
    (∀ b0 b1 b2 b3 : Byte, s.inputs = .host (.memWrite s.cfg.base 4 (wordOfBytes b0 b1 b2 b3)) :: rest →
      step s = exec (decode s.cfg.numGroups (wordOfBytes b0 b1 b2 b3)) { s with inputs := rest })
    ∧ (s.inputs = .tick :: rest → s.ten = 1 → step s = exec .tick { s with inputs := rest })

/-- 42_control R101: while TEN = 1 TICK may fire, while TEN = 0 no TICK fires, and after a SET_CTRL that sets TEN = 0 none
fires until a SET_CTRL sets it to 1 again (TEN is changed by nothing else). -/
def Obligations.TickFiresOnlyWhileEnabled : Prop :=
  ∀ (s : State), s.NoFault →
    (∀ rest, s.inputs = .tick :: rest → s.ten = 1 → ∃ t, step s = .next t ∧ t.tcnt = s.tcnt + 1)
    ∧ (∀ rest, s.inputs = .tick :: rest → s.ten = 0 → ∀ t, step s ≠ .next t)
    ∧ (∀ t, step s = .next t → s.ten = 0 → t.ten = 1 →
        ∃ w rest, s.inputs = .host (.memWrite s.cfg.base 4 w) :: rest ∧ decode s.cfg.numGroups w = .setCtrl 1)

/-! ### REGISTER -/

/-- 40_registry R81: the four outcomes of REGISTER, in their order, with the whole next state of each. No relation
between the two handles and no earlier registration of the pin is assumed. -/
def Obligations.RegisterAppendsAChannel : Prop :=
  ∀ (s : State) (e l : Byte) (p : PinIndex), s.Inv → e.toNat < s.cfg.numGroups → l.toNat < s.cfg.numGroups →
    if s.ten = 1 then
      exec (.register e l p) s = .next { s with faults := s.faults ++ [.registerWhileTicking] }
    else if s.count.toNat = s.cfg.capacity then
      exec (.register e l p) s = .next { s with result := 0x000005FF }
    else if (e, p) ∈ s.cfg.hwPwmPins ∨ (l, p) ∈ s.cfg.hwPwmPins then
      exec (.register e l p) s = .next { s with faults := s.faults ++ [.pinAlias] }
    else
      ∃ t, exec (.register e l p) s = .next t
        ∧ t.count.toNat = s.count.toNat + 1
        ∧ t.channel s.count.toNat = ⟨e, l, p, 0, false, 0⟩
        ∧ (∀ j, j ≠ s.count.toNat → t.channel j = s.channel j)
        ∧ bitOf (t.pinByte .en e.toNat) p = true
        ∧ (∀ g b, ¬ (g = e.toNat ∧ b = p) → bitOf (t.pinByte .en g) b = bitOf (s.pinByte .en g) b)
        ∧ t.result = 0x00000400 ||| s.count.zeroExtend 32
        ∧ t = { s with count := t.count, channels := t.channels, en := t.en, result := t.result }

/-- 40_registry R83: a REGISTER into the full registry changes nothing but RESULT, in every state with TEN = 0. -/
def Obligations.RegisterIntoFullRegistryIsANoOp : Prop :=
  ∀ (s : State) (e l : Byte) (p : PinIndex), s.ten = 0 → s.count.toNat = s.cfg.capacity →
    exec (.register e l p) s = .next { s with result := 0x000005FF }

/-- 60_exceptions R107: both faults append their reason to FAULTS and do nothing else, and a state whose FAULTS is not
empty has no further step, whatever the next event is. -/
def Obligations.FaultsAreRecordedAndFinal : Prop :=
  (∀ (s : State) (e l : Byte) (p : PinIndex), s.ten = 1 →
    exec (.register e l p) s = .next { s with faults := s.faults ++ [.registerWhileTicking] })
  ∧ (∀ (s : State) (e l : Byte) (p : PinIndex), s.ten = 0 → s.count.toNat ≠ s.cfg.capacity →
    ((e, p) ∈ s.cfg.hwPwmPins ∨ (l, p) ∈ s.cfg.hwPwmPins) →
    exec (.register e l p) s = .next { s with faults := s.faults ++ [.pinAlias] })
  ∧ (∀ s : State, s.faults ≠ [] → ∀ t, step s ≠ .next t)

/-- 10_state R39: FAULTS starts empty, a step only appends to it, and a state with a fault has no next state. -/
def Obligations.FaultsOnlyGrow : Prop :=
  (∀ c : Config, (State.resetWith c).faults = [])
  ∧ (∀ s t : State, step s = .next t → s.faults = [] ∧ (t.faults = [] ∨ ∃ r, t.faults = [r]))
  ∧ (∀ s : State, s.faults ≠ [] → ∀ t, step s ≠ .next t)

/-- Derived (70_reset R133, which the spec derives from 40_registry R81): a successful REGISTER whose two handles name one
group makes the pin driven at once, at the level LVL held for it, and changes the level of no other pin. -/
def Obligations.RegisteredPinIsDrivenAtItsOldLevel : Prop :=
  ∀ (s : State) (g : Byte) (p : PinIndex), s.Inv → s.ten = 0 → s.count.toNat < s.cfg.capacity →
    g.toNat < s.cfg.numGroups → (g, p) ∉ s.cfg.hwPwmPins →
    ∃ t, exec (.register g g p) s = .next t
      ∧ t.pinLevel g p = some (bitOf (s.pinByte .lvl g.toNat) p)
      ∧ ∀ (g' : Byte) (b : PinIndex), ¬ (g' = g ∧ b = p) → t.pinLevel g' b = s.pinLevel g' b

/-! ### SET_DUTY -/

/-- 40_registry R84: the two outcomes of SET_DUTY, with the whole next state of each. -/
def Obligations.SetDutyOverwritesOneDuty : Prop :=
  ∀ (s : State) (i v : Byte), s.Inv →
    if s.count.toNat ≤ i.toNat then
      exec (.setDuty i v) s = .next { s with result := 0x000006FF }
    else
      ∃ t, exec (.setDuty i v) s = .next t
        ∧ t.channel i.toNat =
            (if s.ten = 1 ∧ (s.channel i.toNat).stale = false then
              { s.channel i.toNat with dprev := (s.channel i.toNat).duty, stale := true, duty := v }
            else { s.channel i.toNat with duty := v })
        ∧ (∀ j, j ≠ i.toNat → t.channel j = s.channel j)
        ∧ t.result = 0x00000400 ||| i.zeroExtend 32
        ∧ t = { s with channels := t.channels, result := t.result }

/-- Derived from 40_registry R87, 41_scheduler R89, R92: after a SET_DUTY to a valid channel that is the highest on its
bit, the next TICK uses the new duty or the duty in force before the change, only the new one where TEN = 0 and no
window was open, and the TICK after it uses the new duty. The old duty is DPREV where the window was open already. -/
def Obligations.OldDutyIsUsedAtMostOnce : Prop :=
  ∀ (s : State) (i v : Byte), s.Inv → i.toNat < s.count.toNat → TopOnItsBit s i.toNat →
    ∃ s' t u, exec (.setDuty i v) s = .next s' ∧ exec .tick s' = .next t ∧ exec .tick t = .next u
      ∧ (levelOf t i.toNat = decide (t.tcnt < v)
        ∨ ((s.ten = 1 ∨ (s.channel i.toNat).stale = true)
          ∧ levelOf t i.toNat = decide (t.tcnt < if (s.channel i.toNat).stale then (s.channel i.toNat).dprev
              else (s.channel i.toNat).duty)))
      ∧ levelOf u i.toNat = decide (u.tcnt < v)

/-! ### TICK -/

/-- Derived from 41_scheduler R89, R90, R92, R98 (the loop, said for every entry and every bit): TICK completes in every
state; the counter goes up by one modulo 256; every valid entry's window is closed and nothing else of an entry changes;
every level bit no valid entry names and every other field keeps its value. In every state that meets the invariant, a
level bit that valid entries use is what the highest of them drives, comparing the counter already incremented with its
duty, or with DPREV where its window was open. -/
def Obligations.TickDrivesEveryChannel : Prop :=
  ∀ s : State,
    ∃ t, exec .tick s = .next t
      ∧ t.tcnt.toNat = (s.tcnt.toNat + 1) % 256
      ∧ (∀ i, i < s.count.toNat → t.channel i = { s.channel i with stale := false })
      ∧ (∀ i, s.count.toNat ≤ i → t.channel i = s.channel i)
      ∧ (s.Inv → ∀ i, i < s.count.toNat → TopOnItsBit s i →
          ∃ d : Byte, (d = (s.channel i).duty ∨ ((s.channel i).stale = true ∧ d = (s.channel i).dprev))
            ∧ levelOf t i = decide (t.tcnt.toNat < d.toNat))
      ∧ (∀ (g : Nat) (b : PinIndex),
          (∀ i, i < s.count.toNat → ¬ ((s.channel i).lgrp.toNat = g ∧ (s.channel i).pin = b)) →
          bitOf (t.pinByte .lvl g) b = bitOf (s.pinByte .lvl g) b)
      ∧ t = { s with tcnt := t.tcnt, channels := t.channels, lvl := t.lvl, draws := t.draws }

/-- Derived from 41_scheduler R93 and R92: the waveform law of a channel that is the highest on its bit, and the boundary
duties 0 and 255. -/
def Obligations.LevelIsCounterBelowDuty : Prop :=
  ∀ (s : State) (i : Nat), s.Inv → i < s.count.toNat → (s.channel i).stale = false → TopOnItsBit s i →
    ∃ t, exec .tick s = .next t
      ∧ levelOf t i = decide (t.tcnt < (s.channel i).duty)
      ∧ ((s.channel i).duty = 0 → levelOf t i = false)
      ∧ ((s.channel i).duty = 255 → (levelOf t i = true ↔ t.tcnt ≠ 255))

/-- Derived from 41_scheduler R94 and R92: over 256 TICKs back to back, nothing standing between them, a channel with no
open window that is the highest on its bit has its bit 1 after exactly DUTY of them, and the counter is back where it was.
`DutyFractionIsExactInEveryRun` says it of runs in which the host acts between the TICKs. -/
def Obligations.DutyFractionIsExact : Prop :=
  ∀ (s : State) (i : Nat), s.Inv → i < s.count.toNat → (s.channel i).stale = false → TopOnItsBit s i →
    highTicks s i 256 = (s.channel i).duty.toNat ∧ (afterTicks 256 s).tcnt = s.tcnt
    ∧ ∀ v : Byte, ∃ k, 1 ≤ k ∧ k ≤ 256 ∧ (afterTicks k s).tcnt = v
        ∧ ∀ j, 1 ≤ j → j ≤ 256 → (afterTicks j s).tcnt = v → j = k

/-- Derived from 41_scheduler R94 and R92: the same of any 256 TICKs of a run, with any host operations between them,
ticks stopped and started again among these, as long as none is a SET_DUTY to the channel or a REGISTER of another
channel on its bit. Each of the values 0..255 is then TCNT's after exactly one of the TICKs, and the channel's entry is
as it was. -/
def Obligations.DutyFractionIsExactInEveryRun : Prop :=
  ∀ (s t : State) (i k : Nat), s.Inv → i < s.count.toNat → (s.channel i).stale = false → TopOnItsBit s i →
    (∀ ev ∈ s.inputs.take k, LeavesChannel s i ev) → (s.inputs.take k).count .tick = 256 →
    Host.Core.run core k s = .next t →
    ticksWhere (fun u => levelOf u i) k s = (s.channel i).duty.toNat
    ∧ t.tcnt = s.tcnt ∧ t.channel i = s.channel i
    ∧ ∀ v : Byte, ticksWhere (fun u => u.tcnt == v) k s = 1

/-- Derived from 41_scheduler R95 and R92: channels share one phase. The TICK that leaves TCNT = 0 raises every channel
with a duty of 1 or more, after the TICK that leaves TCNT = 255 every channel is low, and the TICK that leaves TCNT =
DUTY leaves it low. -/
def Obligations.RisingEdgesFallOnTheWrap : Prop :=
  ∀ (s : State) (i : Nat), s.Inv → i < s.count.toNat → (s.channel i).stale = false → TopOnItsBit s i →
    ∃ t, exec .tick s = .next t
      ∧ (s.tcnt = 255 → t.tcnt = 0 ∧ (levelOf t i = true ↔ (s.channel i).duty ≠ 0))
      ∧ (s.tcnt = 254 → t.tcnt = 255 ∧ levelOf t i = false)
      ∧ (s.tcnt + 1 = (s.channel i).duty → levelOf t i = false)

/-- Derived from 10_state R38 and 41_scheduler R93: what the pin of a channel shows after a TICK, for a channel with no
open window that is the highest on its bit: its waveform where the pin is driven, and no level where it is not. -/
def Obligations.DrivenPinShowsTheWaveform : Prop :=
  ∀ (s : State) (i : Nat), s.Inv → i < s.count.toNat → (s.channel i).stale = false → TopOnItsBit s i →
    ∃ t, exec .tick s = .next t
      ∧ t.pinLevel (s.channel i).lgrp (s.channel i).pin
        = if bitOf (s.pinByte .en (s.channel i).lgrp.toNat) (s.channel i).pin then
            some (decide (t.tcnt < (s.channel i).duty))
          else none

/-- Derived (41_scheduler R92, which the spec derives from R89 and 40_registry R82): where two valid channels use one
level bit, after the TICK the bit holds what the higher one drives; and channels on different bits do not interact:
another duty of channel j changes no level bit but j's own. -/
def Obligations.HigherIndexWinsAndOthersDoNotInteract : Prop :=
  (∀ (s : State) (i j : Nat), s.Inv → i < j → j < s.count.toNat → TopOnItsBit s j →
    (s.channel i).lgrp = (s.channel j).lgrp → (s.channel i).pin = (s.channel j).pin →
    ∃ t, exec .tick s = .next t ∧ levelOf t i = levelOf t j
      ∧ ∃ d : Byte, (d = (s.channel j).duty ∨ ((s.channel j).stale = true ∧ d = (s.channel j).dprev))
        ∧ levelOf t i = decide (t.tcnt < d))
  ∧ (∀ (s : State) (j : Nat) (v : Byte),
    ∃ t t', exec .tick s = .next t ∧ exec .tick (s.setChannel j { s.channel j with duty := v }) = .next t'
      ∧ ∀ (g : Nat) (b : PinIndex), ¬ (g = (s.channel j).lgrp.toNat ∧ b = (s.channel j).pin) →
          bitOf (t'.pinByte .lvl g) b = bitOf (t.pinByte .lvl g) b)

/-- Derived (41_scheduler R97, which the spec derives from R89): a TICK with COUNT = 0 only increments TCNT, and the
counter runs whether or not any channel is registered, as long as TEN = 1. -/
def Obligations.TickWithNoChannelOnlyCounts : Prop :=
  (∀ s : State, s.count = 0 → exec .tick s = .next { s with tcnt := s.tcnt + 1 })
  ∧ (∀ s : State, s.ten = 1 → ∃ t, eventStep .tick s = .next t ∧ t.tcnt = s.tcnt + 1)

/-- Derived from 41_scheduler R99: outside a stale window a TICK does not depend on the draws, and makes none. -/
def Obligations.TickIsAFunctionOutsideTheWindow : Prop :=
  ∀ (s : State) (n : Nat), (∀ i, i < s.count.toNat → (s.channel i).stale = false) →
    ∃ t, exec .tick s = .next t ∧ t.draws = s.draws
      ∧ exec .tick { s with draws := n } = .next { t with draws := n }

/-- Derived from 41_scheduler R91, 60_exceptions R113 and 70_reset R129: with TEN = 1 any number of TICKs placed next run,
one a step, and k of them advance the counter by k modulo 256. -/
def Obligations.AnyNumberOfTicksRuns : Prop :=
  ∀ (s : State) (k : Nat) (rest : List Event), s.NoFault → s.ten = 1 →
    ∃ t, Host.Core.run core k { s with inputs := List.replicate k .tick ++ rest } = .next t
      ∧ t = { afterTicks k s with inputs := rest }
      ∧ t.tcnt.toNat = (s.tcnt.toNat + k) % 256

/-! ### SET_CTRL and ILLEGAL -/

/-- 42_control R100: SET_CTRL writes TEN and RESULT and nothing else, whatever TEN held. -/
def Obligations.SetCtrlWritesTheTickEnable : Prop :=
  ∀ (s : State) (t : BitVec 1), exec (.setCtrl t) s = .next { s with ten := t, result := 0x00000400 }

/-- Derived (70_reset R139, which the spec derives from 42_control R100 and R101): while ticks are off every level stays
as the last TICK left it, for as long as the host writes no LVL byte and no SET_CTRL 1; and SET_CTRL 0 itself changes no
level. -/
def Obligations.LevelsFreezeWhileTicksAreOff : Prop :=
  (∀ s : State, ∃ t, exec (.setCtrl 0) s = .next t ∧ t.ten = 0 ∧ ∀ g b, t.pinLevel g b = s.pinLevel g b)
  ∧ ∀ (s t : State) (k : Nat), s.ten = 0 →
    (∀ ev ∈ s.inputs, (∀ g v, ev ≠ .host (.pinWrite .lvl g v))
      ∧ ∀ w, ev = .host (.memWrite s.cfg.base 4 w) → decode s.cfg.numGroups w ≠ .setCtrl 1) →
    Host.Core.run core k s = .next t →
    t.lvl = s.lvl ∧ t.tcnt = s.tcnt ∧ t.ten = 0

/-- 42_control R102: a word that decodes to no command, of each of the kinds the rule lists, written to CMD changes RESULT
only. -/
def Obligations.IllegalWordsChangeOnlyResult : Prop :=
  (∀ (s : State) (w : Word), exec (.illegal w) s = .next { s with result := 0x000007FF })
  ∧ ∀ (s : State) (w : Word),
    ((w.toNat / 2 ^ 24 = 0x00 ∨ w.toNat / 2 ^ 24 = 0x03 ∨ 0x05 ≤ w.toNat / 2 ^ 24)
      ∨ (w.toNat / 2 ^ 24 = 0x01 ∧ (w.toNat / 2 ^ 3 % 2 ^ 5 ≠ 0 ∨ s.cfg.numGroups ≤ w.toNat / 2 ^ 16 % 2 ^ 8
          ∨ s.cfg.numGroups ≤ w.toNat / 2 ^ 8 % 2 ^ 8))
      ∨ (w.toNat / 2 ^ 24 = 0x02 ∧ w.toNat / 2 ^ 8 % 2 ^ 8 ≠ 0)
      ∨ (w.toNat / 2 ^ 24 = 0x04 ∧ w.toNat / 2 % 2 ^ 23 ≠ 0)) →
    hostStep (.memWrite s.cfg.base 4 w) s = .next { s with result := 0x000007FF }

/-! ### RESULT -/

/-- 60_exceptions R106: the outcome words, by command, of every command that completes without a fault, and what FULL and
INVALID_INDEX leave. -/
def Obligations.EveryOutcomeHasItsResultWord : Prop :=
  ∀ (s t : State),
    (∀ e l p, exec (.register e l p) s = .next t → t.faults = s.faults →
      if s.count.toNat = s.cfg.capacity then t = { s with result := 0x000005FF }
      else t.result = 0x00000400 ||| s.count.zeroExtend 32)
    ∧ (∀ i v, exec (.setDuty i v) s = .next t →
      if s.count.toNat ≤ i.toNat then t = { s with result := 0x000006FF }
      else t.result = 0x00000400 ||| i.zeroExtend 32)
    ∧ (∀ b, exec (.setCtrl b) s = .next t → t.result = 0x00000400)
    ∧ (∀ w, exec (.illegal w) s = .next t → t.result = 0x000007FF)

/-- Derived from 10_state R41 and 42_control R103: no instruction reads RESULT. Two states that differ in RESULT only go
to states that differ in RESULT at most. -/
def Obligations.NoInstructionReadsResult : Prop :=
  ∀ (i : Instr) (s t : State) (r : Word), exec i s = .next t →
    ∃ t', exec i { s with result := r } = .next t' ∧ { t' with result := t.result } = t

/-! ### The whole machine -/

/-- Derived from 10_state R23, R24, R25, R26, R32, R36, R37, R40 and 40_registry R86: every step from a state that meets
the invariant gives a state that meets it. -/
def Obligations.StepKeepsTheInvariant : Prop :=
  ∀ s t : State, s.Inv → step s = .next t → t.Inv

/-- Derived from the same rules and 70_reset R127: in every state a run reaches, under every configuration, interleaving
and sequence of draws, the invariant holds under that configuration; and while FAULTS is empty and TEN = 1 a TICK is
enabled (60_exceptions R113). -/
def Obligations.ReachableStatesMeetTheInvariant : Prop :=
  ∀ (c : Config) (s : State), c.Ok → Reachable c s →
    s.Inv ∧ s.cfg = c ∧ (s.NoFault → s.ten = 1 → ∃ t, eventStep .tick s = .next t ∧ t.Inv)

/-- Derived (10_state R43, which the spec derives from R23, R24 and 40_registry R81): once filled, an entry stays valid
and keeps its handles and its pin, whatever the step; and a registration attempt that fails leaves the state of every
channel unchanged. -/
def Obligations.FilledEntriesKeepTheirPin : Prop :=
  (∀ (s t : State) (i : Nat), s.Inv → step s = .next t → i < s.count.toNat →
    i < t.count.toNat ∧ (t.channel i).egrp = (s.channel i).egrp ∧ (t.channel i).lgrp = (s.channel i).lgrp
      ∧ (t.channel i).pin = (s.channel i).pin)
  ∧ (∀ (s t : State) (e l : Byte) (p : PinIndex), exec (.register e l p) s = .next t → t.count = s.count →
    t.channels = s.channels)

/-- Derived from 10_state R20, R23, R30, R31, R36, R37, R40, R44: which step writes which element. -/
def Obligations.EachElementHasItsWriters : Prop :=
  ∀ s t : State, step s = .next t →
    t.cfg = s.cfg
    ∧ (t.tcnt ≠ s.tcnt → s.ten = 1 ∧ s.inputs.head? = some .tick)
    ∧ (t.lvl ≠ s.lvl → (s.ten = 1 ∧ s.inputs.head? = some .tick)
        ∨ ∃ g v, s.inputs.head? = some (.host (.pinWrite .lvl g v)))
    ∧ (t.en ≠ s.en → (∃ w e l p, s.inputs.head? = some (.host (.memWrite s.cfg.base 4 w))
          ∧ decode s.cfg.numGroups w = .register e l p)
        ∨ ∃ g v, s.inputs.head? = some (.host (.pinWrite .en g v)))
    ∧ (t.count ≠ s.count → t.count = s.count + 1 ∧ s.ten ≠ 1
        ∧ ∃ w e l p, s.inputs.head? = some (.host (.memWrite s.cfg.base 4 w))
          ∧ decode s.cfg.numGroups w = .register e l p)
    ∧ (t.ten ≠ s.ten → ∃ w, s.inputs.head? = some (.host (.memWrite s.cfg.base 4 w))
          ∧ decode s.cfg.numGroups w = .setCtrl t.ten)
    ∧ (t.channels ≠ s.channels → (s.ten = 1 ∧ s.inputs.head? = some .tick)
        ∨ ∃ w, s.inputs.head? = some (.host (.memWrite s.cfg.base 4 w))
          ∧ ((∃ e l p, decode s.cfg.numGroups w = .register e l p) ∨ ∃ i v, decode s.cfg.numGroups w = .setDuty i v))
    ∧ (t.result ≠ s.result → ∃ w, s.inputs.head? = some (.host (.memWrite s.cfg.base 4 w)))
    ∧ (t.faults ≠ s.faults → ∃ w e l p, s.inputs.head? = some (.host (.memWrite s.cfg.base 4 w))
          ∧ decode s.cfg.numGroups w = .register e l p)

/-- Derived from 10_state R44: the frame of REGISTER, in every state. It writes only COUNT, the entry at COUNT, one EN
bit, RESULT, and the mark FAULTS where it faults. -/
def Obligations.RegisterFrame : Prop :=
  ∀ (s t : State) (e l : Byte) (p : PinIndex), exec (.register e l p) s = .next t →
    (∀ j, j ≠ s.count.toNat → t.channel j = s.channel j)
    ∧ (∀ g b, ¬ (g = e.toNat ∧ b = p) → bitOf (t.pinByte .en g) b = bitOf (s.pinByte .en g) b)
    ∧ t = { s with count := t.count, channels := t.channels, en := t.en, result := t.result, faults := t.faults }

/-- Derived from 10_state R44: the frame of SET_DUTY, in every state. It writes only DUTY, STALE and DPREV of the entry
its index names, and RESULT. -/
def Obligations.SetDutyFrame : Prop :=
  ∀ (s t : State) (i v : Byte), exec (.setDuty i v) s = .next t →
    (∀ j, j ≠ i.toNat → t.channel j = s.channel j)
    ∧ ((t.channel i.toNat).egrp = (s.channel i.toNat).egrp ∧ (t.channel i.toNat).lgrp = (s.channel i.toNat).lgrp
      ∧ (t.channel i.toNat).pin = (s.channel i.toNat).pin)
    ∧ t = { s with channels := t.channels, result := t.result }

/-- Derived from 10_state R44: the frame of TICK, in every state. It writes only TCNT, STALE of the valid entries, the
level bits the valid entries name, and the model's own counter of draws. -/
def Obligations.TickFrame : Prop :=
  ∀ s t : State, exec .tick s = .next t →
    (∀ i, { t.channel i with stale := (s.channel i).stale } = s.channel i)
    ∧ (∀ i, s.count.toNat ≤ i → t.channel i = s.channel i)
    ∧ (∀ (g : Nat) (b : PinIndex),
        (∀ i, i < s.count.toNat → ¬ ((s.channel i).lgrp.toNat = g ∧ (s.channel i).pin = b)) →
        bitOf (t.pinByte .lvl g) b = bitOf (s.pinByte .lvl g) b)
    ∧ t = { s with tcnt := t.tcnt, channels := t.channels, lvl := t.lvl, draws := t.draws }

/-- Derived from 10_state R35: what unfilled entries hold cannot be seen. From two states that differ only in it, a step
answers the same way, and the next states again differ only in it, so that no read and no pin ever tells them apart. -/
def Obligations.UnfilledEntriesAreUnobservable : Prop :=
  ∀ s t : State, SameFilled s t →
    (∀ s', step s = .next s' → ∃ t', step t = .next t' ∧ SameFilled s' t')
    ∧ (∀ r, step s = .fault r → step t = .fault r)
    ∧ (∀ r, step s = .refused r → step t = .refused r)

/-! ### The host's accesses -/

/-- 10_state R33: the word STATUS shows, field by field; writes to it are ignored; its reset value on this hardware. -/
def Obligations.StatusShowsItsFields : Prop :=
  ∀ s : State, s.Inv →
    s.status = (BitVec.ofNat 32 s.cfg.capacity <<< 24) ||| (s.ten.zeroExtend 32 <<< 16) ||| (s.tcnt.zeroExtend 32 <<< 8)
      ||| s.count.zeroExtend 32
    ∧ s.status.toNat % 2 ^ 4 = s.count.toNat ∧ s.status.toNat / 2 ^ 4 % 2 ^ 4 = 0
    ∧ s.status.toNat / 2 ^ 8 % 2 ^ 8 = s.tcnt.toNat ∧ s.status.toNat / 2 ^ 16 % 2 = s.ten.toNat
    ∧ s.status.toNat / 2 ^ 17 % 2 ^ 7 = 0 ∧ s.status.toNat / 2 ^ 24 % 2 ^ 4 = s.cfg.capacity
    ∧ s.status.toNat / 2 ^ 28 = 0
    ∧ (∀ v : Word, hostStep (.memWrite (s.cfg.base + 0x08) 4 v) s = .next s)
    ∧ (s.cfg.capacity = 8 → (State.resetWith s.cfg).status = 0x08000000)

/-- 10_state R34: the word CHAN[i] shows for a valid entry, and 0 for every other slot; writes to it are ignored; reset
leaves it 0. -/
def Obligations.ChanShowsItsEntry : Prop :=
  ∀ (s : State) (i : Nat),
    (i < 12 → ∀ v : Word, hostStep (.memWrite (s.cfg.base + (0x10 + 4 * i)) 4 v) s = .next s)
    ∧ (State.resetWith s.cfg).chan i = 0x00000000
    ∧ if i < s.count.toNat then
      s.chan i = (1#32 <<< 31) ||| ((s.channel i).pin.zeroExtend 32 <<< 24) ||| ((s.channel i).lgrp.zeroExtend 32 <<< 16)
        ||| ((s.channel i).egrp.zeroExtend 32 <<< 8) ||| (s.channel i).duty.zeroExtend 32
    else s.chan i = 0x00000000

/-- 20_memory R53: what a read of every word of the window returns (the model adds it to `observed`, log 14), without any
change to the block. -/
def Obligations.WindowReadsReturnTheirWord : Prop :=
  ∀ s : State,
    hostStep (.memRead (s.cfg.base + 0x00) 4) s = .next { s with observed := s.observed ++ [.word 0x00000000] }
    ∧ hostStep (.memRead (s.cfg.base + 0x04) 4) s = .next { s with observed := s.observed ++ [.word s.result] }
    ∧ hostStep (.memRead (s.cfg.base + 0x08) 4) s = .next { s with observed := s.observed ++ [.word s.status] }
    ∧ hostStep (.memRead (s.cfg.base + 0x0C) 4) s = .next { s with observed := s.observed ++ [.word 0x00000000] }
    ∧ ∀ i, i < 12 →
      hostStep (.memRead (s.cfg.base + (0x10 + 4 * i)) 4) s = .next { s with observed := s.observed ++ [.word (s.chan i)] }

/-- 20_memory R54: a read changes no state of the block, and two reads with no step between them return the same. What a
read returns is what the model adds to `observed` (log 14). -/
def Obligations.ReadsHaveNoSideEffects : Prop :=
  ∀ (s t : State) (op : HostOp), (∃ a n, op = .memRead a n) ∨ (∃ r g, op = .pinRead r g) → hostStep op s = .next t →
    ∃ o, t = { s with observed := s.observed ++ [o] }
      ∧ hostStep op t = .next { t with observed := t.observed ++ [o] }

/-- 20_memory R55: a write at offset 0x00 executes the command, a write at any other offset changes no state. -/
def Obligations.OnlyCmdWritesHaveAnEffect : Prop :=
  ∀ (s : State) (v : Word),
    hostStep (.memWrite (s.cfg.base + 0x00) 4 v) s = exec (decode s.cfg.numGroups v) s
    ∧ ∀ k, 1 ≤ k → k < 16 → hostStep (.memWrite (s.cfg.base + 4 * k) 4 v) s = .next s

/-- 20_memory R51: within the window an access of a size other than 4 is refused as BusWidth, one that is not aligned as
BusMisaligned, and an aligned 4-byte read completes; a write then is a command or ignored (R55), never refused. -/
def Obligations.WindowAdmitsAlignedWordsOnly : Prop :=
  ∀ (s : State) (a n : Nat) (v : Word), s.cfg.base ≤ a → a < s.cfg.base + 0x40 →
    (n ≠ 4 → hostStep (.memRead a n) s = .refused .busWidth ∧ hostStep (.memWrite a n v) s = .refused .busWidth)
    ∧ (n = 4 → (a - s.cfg.base) % 4 ≠ 0 →
        hostStep (.memRead a n) s = .refused .busMisaligned ∧ hostStep (.memWrite a n v) s = .refused .busMisaligned)
    ∧ (n = 4 → (a - s.cfg.base) % 4 = 0 →
        (∃ t, hostStep (.memRead a n) s = .next t) ∧ ∃ t, hostStep (.memWrite a n v) s = .next t)

/-- 20_memory R57: a pin-group read returns the byte, a write replaces the whole byte and nothing else, and a group not
below NUM_GROUPS is refused. -/
def Obligations.PinAccessesReadAndWriteWholeBytes : Prop :=
  ∀ (s : State) (r : PinReg) (g : Nat) (v : Byte), s.Inv →
    (g < s.cfg.numGroups →
      hostStep (.pinRead r g) s = .next { s with observed := s.observed ++ [.byte (s.pinByte r g)] }
      ∧ ∃ t, hostStep (.pinWrite r g v) s = .next t ∧ t.pinByte r g = v
        ∧ (∀ r' g', r' ≠ r ∨ g' ≠ g → t.pinByte r' g' = s.pinByte r' g')
        ∧ t = { s with en := t.en, lvl := t.lvl })
    ∧ (s.cfg.numGroups ≤ g →
      hostStep (.pinRead r g) s = .refused .noSuchGroup ∧ hostStep (.pinWrite r g v) s = .refused .noSuchGroup)

/-- Derived from 20_memory R58 and 70_reset R137: a host write to the LVL byte of a channel's pin lasts only until the
next TICK, which drives the channel's bit to its own level and leaves the bits no channel uses as the host wrote them.
-/
def Obligations.HostLevelWriteLastsUntilTheNextTick : Prop :=
  ∀ (s : State) (i : Nat) (v : Byte), s.Inv → i < s.count.toNat → (s.channel i).stale = false → TopOnItsBit s i →
    ∃ s' t, hostStep (.pinWrite .lvl (s.channel i).lgrp.toNat v) s = .next s'
      ∧ levelOf s' i = bitOf v (s.channel i).pin
      ∧ exec .tick s' = .next t
      ∧ levelOf t i = decide (t.tcnt < (s.channel i).duty)
      ∧ ∀ b, (∀ j, j < s.count.toNat → ¬ ((s.channel j).lgrp = (s.channel i).lgrp ∧ (s.channel j).pin = b)) →
          bitOf (t.pinByte .lvl (s.channel i).lgrp.toNat) b = bitOf v b

/-- Derived from 70_reset R136 and 20_memory R61: a host read-modify-write of LVL with a TICK between its two steps writes
back the bits from before the TICK, so that of the TICK's writes to that group nothing is left. -/
def Obligations.ReadModifyWriteUndoesTheTickBetween : Prop :=
  ∀ (s : State) (g : Nat) (m : Byte), s.Inv → s.NoFault → s.ten = 1 → g < s.cfg.numGroups →
    ∃ t, Host.Core.run core 3
        { s with inputs := [.host (.pinRead .lvl g), .tick, .host (.pinWrite .lvl g (s.pinByte .lvl g ||| m))] } = .next t
      ∧ t.observed = s.observed ++ [.byte (s.pinByte .lvl g)]
      ∧ t.tcnt = s.tcnt + 1
      ∧ t.pinByte .lvl g = s.pinByte .lvl g ||| m

/-- 60_exceptions R109: which outcome wins where several apply: a refusal, then ILLEGAL, then for REGISTER
RegisterWhileTicking, FULL, PinAlias, OK, and for SET_DUTY INVALID_INDEX, OK. -/
def Obligations.OutcomesFollowTheirPriority : Prop :=
  ∀ (s : State) (w : Word),
    (∀ a n, s.cfg.base ≤ a → a < s.cfg.base + 0x40 → n ≠ 4 ∨ (a - s.cfg.base) % 4 ≠ 0 →
      ∃ r, hostStep (.memWrite a n w) s = .refused r)
    ∧ (isIllegalWord s.cfg.numGroups w = true →
      hostStep (.memWrite s.cfg.base 4 w) s = .next { s with result := 0x000007FF })
    ∧ (∀ e l p, decode s.cfg.numGroups w = .register e l p →
      if s.ten = 1 then
        hostStep (.memWrite s.cfg.base 4 w) s = .next { s with faults := s.faults ++ [.registerWhileTicking] }
      else if s.count.toNat = s.cfg.capacity then
        hostStep (.memWrite s.cfg.base 4 w) s = .next { s with result := 0x000005FF }
      else if (e, p) ∈ s.cfg.hwPwmPins ∨ (l, p) ∈ s.cfg.hwPwmPins then
        hostStep (.memWrite s.cfg.base 4 w) s = .next { s with faults := s.faults ++ [.pinAlias] }
      else ∃ t, hostStep (.memWrite s.cfg.base 4 w) s = .next t ∧ t.result = 0x00000400 ||| s.count.zeroExtend 32)
    ∧ (∀ i v, decode s.cfg.numGroups w = .setDuty i v →
      if s.count.toNat ≤ i.toNat then
        hostStep (.memWrite s.cfg.base 4 w) s = .next { s with result := 0x000006FF }
      else ∃ t, hostStep (.memWrite s.cfg.base 4 w) s = .next t ∧ t.result = 0x00000400 ||| i.zeroExtend 32)

/-- Derived from 20_memory R51, R57, 40_registry R81, R83, R85, R86 and 60_exceptions R109: the host operations that
complete without a fault are exactly the accesses the block accepts whose word, if written to CMD, is no REGISTER, or a
REGISTER with TEN = 0 that finds the registry full or names no pin of HW_PWM_PINS. An access outside the window is
refused by the model's own choice (log 9). -/
def Obligations.HostRulesAreExactlyWhatCompletes : Prop :=
  ∀ (s : State) (op : HostOp),
    (∃ t, hostStep op s = .next t ∧ t.faults = s.faults) ↔ HostOpHasOutcome s op

/-- Derived from 60_exceptions R123: a host operation that keeps what R123 says the host must do (as far as the model sees
it, log 25) completes without a fault. -/
def Obligations.KeepingTheHostRulesCompletes : Prop :=
  ∀ (s : State) (op : HostOp), HostKeepsRules s op → ∃ t, hostStep op s = .next t ∧ t.faults = s.faults

/-- Derived from 60_exceptions R113 and 41_scheduler R89: in a fair run (`FairRun`, log 20) in which TEN stays 1 from
some step on, the counter takes every value again and again. -/
def Obligations.FairTicksReachEveryCount : Prop :=
  ∀ (st : Nat → State) (ev : Nat → Event) (op : Nat → Option HostOp) (taken : Nat → Nat) (k : Nat),
    FairRun st ev op taken → (∀ j, k ≤ j → (st j).ten = 1) →
    ∀ (v : Byte) (j : Nat), ∃ m, j ≤ m ∧ (st m).tcnt = v
end

