-- ==== Sys2Proof/Laws/Fields.lean ====
section
/-! SUPPORT. The fields of a word as quotients and remainders, and a word's number from its fields (30_encoding R67 to
R72): what every proof about encodings turns to arithmetic with. -/

namespace Sys2Proof

theorem toNat_append_arith {m n : Nat} (x : BitVec m) (y : BitVec n) : (x ++ y).toNat = x.toNat * 2 ^ n + y.toNat := by
  rw [BitVec.toNat_append, ← Nat.shiftLeft_add_eq_or_of_lt y.isLt, Nat.shiftLeft_eq]

theorem toNat_field {m : Nat} (w : BitVec m) (lo len : Nat) : (w.extractLsb' lo len).toNat = w.toNat / 2 ^ lo % 2 ^ len := by
  rw [BitVec.extractLsb'_toNat, Nat.shiftRight_eq_div_pow]

theorem toNat_op (w : Word) : (Word.op w).toNat = w.toNat / 2 ^ 24 := by
  have := w.isLt
  rw [Word.op, toNat_field]
  omega

theorem toNat_encode_register (e l : Byte) (p : PinIndex) :
    (encode (.register e l p)).toNat = 1 * 2 ^ 24 + e.toNat * 2 ^ 16 + l.toNat * 2 ^ 8 + p.toNat := by
  simp only [encode, toNat_append_arith, BitVec.toNat_ofNat]
  omega

theorem toNat_encode_setDuty (i v : Byte) :
    (encode (.setDuty i v)).toNat = 2 * 2 ^ 24 + i.toNat * 2 ^ 16 + v.toNat := by
  simp only [encode, toNat_append_arith, BitVec.toNat_ofNat]
  omega

theorem toNat_encode_setCtrl (t : BitVec 1) : (encode (.setCtrl t)).toNat = 4 * 2 ^ 24 + t.toNat := by
  simp only [encode, toNat_append_arith, BitVec.toNat_ofNat]
  omega

end Sys2Proof

namespace Sys2Proof

theorem op_eq_iff (w : Word) {k : Nat} (hk : k < 256) : Word.op w = BitVec.ofNat 8 k ↔ w.toNat / 2 ^ 24 = k := by
  rw [← BitVec.toNat_inj, toNat_op, BitVec.toNat_ofNat]
  omega

theorem field_zero_iff {m : Nat} (w : BitVec m) (lo len : Nat) :
    w.extractLsb' lo len = 0#len ↔ w.toNat / 2 ^ lo % 2 ^ len = 0 := by
  rw [← BitVec.toNat_inj, toNat_field, BitVec.toNat_ofNat, Nat.zero_mod]

/-- R75's arms with every condition as arithmetic on the word's number. -/
theorem decode_arith (n : Nat) (w : Word) :
    decode n w =
      if w.toNat / 2 ^ 24 = 1 ∧ w.toNat / 2 ^ 3 % 2 ^ 5 = 0 ∧ w.toNat / 2 ^ 16 % 2 ^ 8 < n ∧ w.toNat / 2 ^ 8 % 2 ^ 8 < n then
        .register (Word.egrp w) (Word.lgrp w) (Word.pin w)
      else if w.toNat / 2 ^ 24 = 2 ∧ w.toNat / 2 ^ 8 % 2 ^ 8 = 0 then .setDuty (Word.index w) (Word.value w)
      else if w.toNat / 2 ^ 24 = 4 ∧ w.toNat / 2 ^ 1 % 2 ^ 23 = 0 then .setCtrl (Word.tenBit w)
      else .illegal w := by
  have e : (Word.egrp w).toNat = w.toNat / 2 ^ 16 % 2 ^ 8 := toNat_field _ _ _
  have l : (Word.lgrp w).toNat = w.toNat / 2 ^ 8 % 2 ^ 8 := toNat_field _ _ _
  unfold decode
  simp only [BitVec.ofNat_eq_ofNat, op_eq_iff w (by decide : 1 < 256), op_eq_iff w (by decide : 2 < 256),
    op_eq_iff w (by decide : 4 < 256), field_zero_iff, e, l]

/-- The words R75 decodes to no command are those that decode to ILLEGAL. -/
theorem isIllegalWord_iff (n : Nat) (w : Word) : isIllegalWord n w = true ↔ decode n w = .illegal w := by
  have r : isRegisterWord n w = true ↔ Word.op w = 0x01 ∧ w.extractLsb' 3 5 = 0#5 ∧ (Word.egrp w).toNat < n
      ∧ (Word.lgrp w).toNat < n := by
    unfold isRegisterWord
    simp only [Bool.and_eq_true, beq_iff_eq, decide_eq_true_eq, and_assoc]
    rfl
  have d : isSetDutyWord w = true ↔ Word.op w = 0x02 ∧ w.extractLsb' 8 8 = 0#8 := by
    unfold isSetDutyWord
    simp only [Bool.and_eq_true, beq_iff_eq]
    rfl
  have c : isSetCtrlWord w = true ↔ Word.op w = 0x04 ∧ w.extractLsb' 1 23 = 0#23 := by
    unfold isSetCtrlWord
    simp only [Bool.and_eq_true, beq_iff_eq]
    rfl
  unfold isIllegalWord decode
  rw [Bool.and_eq_true, Bool.and_eq_true, Bool.not_eq_true', Bool.not_eq_true', Bool.not_eq_true',
    ← Bool.not_eq_true, ← Bool.not_eq_true, ← Bool.not_eq_true, r, d, c]
  split
  · simp_all
  · split
    · simp_all
    · split
      · simp_all
      · simp_all

end Sys2Proof
end

