-- ==== Sys2Proof/Laws/PerInstr.lean ====
section
/-! SUPPORT. A law of every instruction: the fields of its word stand where formats R, D, T and C put them (30_encoding R68
to R71), the reserved bits zero. -/

namespace Sys2Proof.Laws.WordFields

/-- Where each operand of an instruction stands in its word, and that the opcode and the reserved bits are the table's. -/
def Statement : Instr → Prop
  | .register e l p =>
    Word.op (encode (.register e l p)) = 0x01 ∧ (encode (.register e l p)).extractLsb' 3 5 = 0#5
      ∧ Word.egrp (encode (.register e l p)) = e ∧ Word.lgrp (encode (.register e l p)) = l
      ∧ Word.pin (encode (.register e l p)) = p
  | .setDuty i v =>
    Word.op (encode (.setDuty i v)) = 0x02 ∧ (encode (.setDuty i v)).extractLsb' 8 8 = 0#8
      ∧ Word.index (encode (.setDuty i v)) = i ∧ Word.value (encode (.setDuty i v)) = v
  | .tick => Word.op (encode .tick) = 0x03 ∧ (encode .tick).extractLsb' 0 24 = 0#24
  | .setCtrl t =>
    Word.op (encode (.setCtrl t)) = 0x04 ∧ (encode (.setCtrl t)).extractLsb' 1 23 = 0#23
      ∧ Word.tenBit (encode (.setCtrl t)) = t
  | .illegal w => encode (.illegal w) = w

theorem register (e l : Byte) (p : PinIndex) : Statement (.register e l p) := by
  have he := e.isLt
  have hl := l.isLt
  have hp := p.isLt
  refine ⟨?_, ?_, ?_, ?_, ?_⟩ <;> apply BitVec.eq_of_toNat_eq <;>
    simp only [Word.op, Word.egrp, Word.lgrp, Word.pin, toNat_field, toNat_encode_register, BitVec.ofNat_eq_ofNat, BitVec.toNat_ofNat] <;> omega

theorem setDuty (i v : Byte) : Statement (.setDuty i v) := by
  have hi := i.isLt
  have hv := v.isLt
  refine ⟨?_, ?_, ?_, ?_⟩ <;> apply BitVec.eq_of_toNat_eq <;>
    simp only [Word.op, Word.index, Word.value, toNat_field, toNat_encode_setDuty, BitVec.ofNat_eq_ofNat, BitVec.toNat_ofNat] <;> omega

theorem tick : Statement .tick := by
  refine ⟨?_, ?_⟩ <;> decide

theorem setCtrl (t : BitVec 1) : Statement (.setCtrl t) := by
  have ht := t.isLt
  refine ⟨?_, ?_, ?_⟩ <;> apply BitVec.eq_of_toNat_eq <;>
    simp only [Word.op, Word.tenBit, toNat_field, toNat_encode_setCtrl, BitVec.ofNat_eq_ofNat, BitVec.toNat_ofNat] <;> omega

theorem illegal (w : Word) : Statement (.illegal w) := rfl

end Sys2Proof.Laws.WordFields
end

