-- ==== Sys2Proof/Laws/State.lean ====
section
/-! SUPPORT. What each update of the state leaves of each field: one lemma per field per update, by definition. -/

namespace Sys2Proof.Machine

variable (s : State) (i : Nat) (c : Channel) (g : Nat) (v : Byte) (b : PinIndex) (x : Bool) (r : PinReg)

@[simp] theorem setChannel_cfg : (s.setChannel i c).cfg = s.cfg := rfl
@[simp] theorem setChannel_count : (s.setChannel i c).count = s.count := rfl
@[simp] theorem setChannel_channels : (s.setChannel i c).channels = s.channels.set i c := rfl
@[simp] theorem setChannel_tcnt : (s.setChannel i c).tcnt = s.tcnt := rfl
@[simp] theorem setChannel_ten : (s.setChannel i c).ten = s.ten := rfl
@[simp] theorem setChannel_result : (s.setChannel i c).result = s.result := rfl
@[simp] theorem setChannel_en : (s.setChannel i c).en = s.en := rfl
@[simp] theorem setChannel_lvl : (s.setChannel i c).lvl = s.lvl := rfl
@[simp] theorem setChannel_faults : (s.setChannel i c).faults = s.faults := rfl
@[simp] theorem setChannel_inputs : (s.setChannel i c).inputs = s.inputs := rfl
@[simp] theorem setChannel_observed : (s.setChannel i c).observed = s.observed := rfl
@[simp] theorem setChannel_draws : (s.setChannel i c).draws = s.draws := rfl
@[simp] theorem setChannel_pinByte : (s.setChannel i c).pinByte r g = s.pinByte r g := by cases r <;> rfl

@[simp] theorem setPinByte_cfg : (s.setPinByte r g v).cfg = s.cfg := by cases r <;> rfl
@[simp] theorem setPinByte_count : (s.setPinByte r g v).count = s.count := by cases r <;> rfl
@[simp] theorem setPinByte_channels : (s.setPinByte r g v).channels = s.channels := by cases r <;> rfl
@[simp] theorem setPinByte_tcnt : (s.setPinByte r g v).tcnt = s.tcnt := by cases r <;> rfl
@[simp] theorem setPinByte_ten : (s.setPinByte r g v).ten = s.ten := by cases r <;> rfl
@[simp] theorem setPinByte_result : (s.setPinByte r g v).result = s.result := by cases r <;> rfl
@[simp] theorem setPinByte_faults : (s.setPinByte r g v).faults = s.faults := by cases r <;> rfl
@[simp] theorem setPinByte_inputs : (s.setPinByte r g v).inputs = s.inputs := by cases r <;> rfl
@[simp] theorem setPinByte_observed : (s.setPinByte r g v).observed = s.observed := by cases r <;> rfl
@[simp] theorem setPinByte_draws : (s.setPinByte r g v).draws = s.draws := by cases r <;> rfl
@[simp] theorem setPinByte_en_en : (s.setPinByte .en g v).en = s.en.set g v := rfl
@[simp] theorem setPinByte_en_lvl : (s.setPinByte .en g v).lvl = s.lvl := rfl
@[simp] theorem setPinByte_lvl_en : (s.setPinByte .lvl g v).en = s.en := rfl
@[simp] theorem setPinByte_lvl_lvl : (s.setPinByte .lvl g v).lvl = s.lvl.set g v := rfl
@[simp] theorem setPinByte_channel : (s.setPinByte r g v).channel i = s.channel i := by cases r <;> rfl

@[simp] theorem drivePinBit_cfg : (s.drivePinBit r g b x).cfg = s.cfg := by simp [State.drivePinBit]
@[simp] theorem drivePinBit_count : (s.drivePinBit r g b x).count = s.count := by simp [State.drivePinBit]
@[simp] theorem drivePinBit_channels : (s.drivePinBit r g b x).channels = s.channels := by simp [State.drivePinBit]
@[simp] theorem drivePinBit_tcnt : (s.drivePinBit r g b x).tcnt = s.tcnt := by simp [State.drivePinBit]
@[simp] theorem drivePinBit_ten : (s.drivePinBit r g b x).ten = s.ten := by simp [State.drivePinBit]
@[simp] theorem drivePinBit_result : (s.drivePinBit r g b x).result = s.result := by simp [State.drivePinBit]
@[simp] theorem drivePinBit_faults : (s.drivePinBit r g b x).faults = s.faults := by simp [State.drivePinBit]
@[simp] theorem drivePinBit_inputs : (s.drivePinBit r g b x).inputs = s.inputs := by simp [State.drivePinBit]
@[simp] theorem drivePinBit_observed : (s.drivePinBit r g b x).observed = s.observed := by simp [State.drivePinBit]
@[simp] theorem drivePinBit_draws : (s.drivePinBit r g b x).draws = s.draws := by simp [State.drivePinBit]
@[simp] theorem drivePinBit_en_lvl : (s.drivePinBit .en g b x).lvl = s.lvl := rfl
@[simp] theorem drivePinBit_lvl_en : (s.drivePinBit .lvl g b x).en = s.en := rfl
@[simp] theorem drivePinBit_channel : (s.drivePinBit r g b x).channel i = s.channel i := by simp [State.drivePinBit]

@[simp] theorem advanceCounter_cfg : (advanceCounter s).cfg = s.cfg := rfl
@[simp] theorem advanceCounter_count : (advanceCounter s).count = s.count := rfl
@[simp] theorem advanceCounter_channels : (advanceCounter s).channels = s.channels := rfl
@[simp] theorem advanceCounter_tcnt : (advanceCounter s).tcnt = s.tcnt + 1 := rfl
@[simp] theorem advanceCounter_ten : (advanceCounter s).ten = s.ten := rfl
@[simp] theorem advanceCounter_result : (advanceCounter s).result = s.result := rfl
@[simp] theorem advanceCounter_en : (advanceCounter s).en = s.en := rfl
@[simp] theorem advanceCounter_lvl : (advanceCounter s).lvl = s.lvl := rfl
@[simp] theorem advanceCounter_faults : (advanceCounter s).faults = s.faults := rfl
@[simp] theorem advanceCounter_inputs : (advanceCounter s).inputs = s.inputs := rfl
@[simp] theorem advanceCounter_observed : (advanceCounter s).observed = s.observed := rfl
@[simp] theorem advanceCounter_draws : (advanceCounter s).draws = s.draws := rfl
@[simp] theorem advanceCounter_channel : (advanceCounter s).channel i = s.channel i := rfl
@[simp] theorem advanceCounter_pinByte : (advanceCounter s).pinByte r g = s.pinByte r g := by cases r <;> rfl

/-! Reading an entry or a pin byte after an update of another field. -/

@[simp] theorem channel_with_channels (l : List Channel) :
    ({ s with channels := l } : State).channel i = l[i]?.getD Channel.blank := rfl
@[simp] theorem channel_with_count (n : BitVec 4) : ({ s with count := n } : State).channel i = s.channel i := rfl
@[simp] theorem channel_with_ten (t : BitVec 1) : ({ s with ten := t } : State).channel i = s.channel i := rfl
@[simp] theorem channel_with_result (w : Word) : ({ s with result := w } : State).channel i = s.channel i := rfl
@[simp] theorem channel_with_faults (l : List Fault) : ({ s with faults := l } : State).channel i = s.channel i := rfl
@[simp] theorem channel_with_inputs (l : List Event) : ({ s with inputs := l } : State).channel i = s.channel i := rfl
@[simp] theorem channel_with_observed (l : List Observation) :
    ({ s with observed := l } : State).channel i = s.channel i := rfl
@[simp] theorem channel_with_draws (n : Nat) : ({ s with draws := n } : State).channel i = s.channel i := rfl
@[simp] theorem pinByte_with_count (n : BitVec 4) : ({ s with count := n } : State).pinByte r g = s.pinByte r g := by
  cases r <;> rfl
@[simp] theorem pinByte_with_ten (t : BitVec 1) : ({ s with ten := t } : State).pinByte r g = s.pinByte r g := by
  cases r <;> rfl
@[simp] theorem pinByte_with_result (w : Word) : ({ s with result := w } : State).pinByte r g = s.pinByte r g := by
  cases r <;> rfl
@[simp] theorem pinByte_with_faults (l : List Fault) : ({ s with faults := l } : State).pinByte r g = s.pinByte r g := by
  cases r <;> rfl
@[simp] theorem pinByte_with_inputs (l : List Event) : ({ s with inputs := l } : State).pinByte r g = s.pinByte r g := by
  cases r <;> rfl
@[simp] theorem pinByte_with_observed (l : List Observation) :
    ({ s with observed := l } : State).pinByte r g = s.pinByte r g := by cases r <;> rfl
@[simp] theorem pinByte_with_draws (n : Nat) : ({ s with draws := n } : State).pinByte r g = s.pinByte r g := by
  cases r <;> rfl

end Sys2Proof.Machine
end

