-- ==== Sys2Proof/Laws/Pins.lean ====
section
/-! SUPPORT. The laws of the pin-group space and of the registry: reading after a write to the same place and to another,
the one-bit write of 20_memory R59, and that every operation keeps the space's form (`Memory.wf`). -/

namespace Sys2Proof.Machine

/-- 00_scope R16's SetBit: the bit replaced reads as written, every other bit as before (20_memory R59). -/
theorem bitOf_setBit (v : Byte) (b b' : PinIndex) (x : Bool) :
    bitOf (setBit v b x) b' = if b' = b then x else bitOf v b' := by
  have hb : b.toNat < 8 := b.isLt
  have hb' : b'.toNat < 8 := b'.isLt
  have hiff : b' = b ↔ b'.toNat = b.toNat := BitVec.toNat_inj.symm
  simp only [bitOf, setBit, BitVec.getLsbD_or, BitVec.getLsbD_and, BitVec.getLsbD_not, BitVec.getLsbD_shiftLeft, hiff, hb']
  by_cases h : b'.toNat = b.toNat
  · cases x <;> simp [h, hb]
  · by_cases hlt : b'.toNat < b.toNat
    · simp [h, hlt]
    · have : b'.toNat - b.toNat ≠ 0 := by omega
      cases x <;> simp [h, hlt, this]

@[simp] theorem bitOf_setBit_same (v : Byte) (b : PinIndex) (x : Bool) : bitOf (setBit v b x) b = x := by
  simp [bitOf_setBit]

theorem bitOf_setBit_other (v : Byte) {b b' : PinIndex} (x : Bool) (h : b' ≠ b) :
    bitOf (setBit v b x) b' = bitOf v b' := by
  simp [bitOf_setBit, h]

theorem channel_setChannel_same {s : State} {i : Nat} (c : Channel) (h : i < s.channels.length) :
    (s.setChannel i c).channel i = c := by
  simp [State.channel, h]

theorem channel_setChannel_other (s : State) {i j : Nat} (c : Channel) (h : j ≠ i) :
    (s.setChannel i c).channel j = s.channel j := by
  simp [State.channel, List.getElem?_set_ne (Ne.symm h)]

/-- Beyond the registry nothing is written. -/
theorem setChannel_beyond {s : State} {i : Nat} (c : Channel) (h : s.channels.length ≤ i) : s.setChannel i c = s := by
  simp [State.setChannel, List.set_eq_of_length_le h]

theorem pinByte_setPinByte_same {s : State} {r : PinReg} {g : Nat} (v : Byte) (h : g < (s.pinArray r).length) :
    (s.setPinByte r g v).pinByte r g = v := by
  cases r <;> simp_all [State.pinByte, State.pinArray, State.setPinByte]

theorem pinByte_setPinByte_other (s : State) {r r' : PinReg} {g g' : Nat} (v : Byte) (h : r' ≠ r ∨ g' ≠ g) :
    (s.setPinByte r g v).pinByte r' g' = s.pinByte r' g' := by
  cases r <;> cases r' <;> simp_all [State.pinByte, State.pinArray, State.setPinByte] <;>
    rw [List.getElem?_set_ne (Ne.symm h)]

theorem pinByte_drivePinBit_other (s : State) {r r' : PinReg} {g g' : Nat} (b : PinIndex) (x : Bool)
    (h : r' ≠ r ∨ g' ≠ g) : (s.drivePinBit r g b x).pinByte r' g' = s.pinByte r' g' :=
  pinByte_setPinByte_other s _ h

/-- The one-bit write, seen bit by bit, where the register exists (20_memory R59). -/
theorem bitOf_drivePinBit {s : State} {r : PinReg} {g : Nat} (b : PinIndex) (x : Bool) (h : g < (s.pinArray r).length)
    (g' : Nat) (b' : PinIndex) :
    bitOf ((s.drivePinBit r g b x).pinByte r g') b' = if g' = g ∧ b' = b then x else bitOf (s.pinByte r g') b' := by
  by_cases hg : g' = g
  · subst hg
    rw [State.drivePinBit, pinByte_setPinByte_same _ h, bitOf_setBit]
    simp
  · rw [pinByte_drivePinBit_other s b x (.inr hg)]
    simp [hg]

/-- The one-bit write leaves every other bit alone, whether or not the register exists. -/
theorem bitOf_drivePinBit_other (s : State) {r : PinReg} {g g' : Nat} {b b' : PinIndex} (x : Bool)
    (h : ¬ (g' = g ∧ b' = b)) : bitOf ((s.drivePinBit r g b x).pinByte r g') b' = bitOf (s.pinByte r g') b' := by
  by_cases hl : g < (s.pinArray r).length
  · rw [bitOf_drivePinBit b x hl]
    simp [h]
  · have hs : s.drivePinBit r g b x = s := by
      cases r <;> simp_all [State.drivePinBit, State.setPinByte, State.pinArray, List.set_eq_of_length_le]
    rw [hs]

/-! ### The form of the pin-group space -/

theorem Memory.wf_iff (s : State) :
    Memory.wf s = true ↔ s.en.length = s.cfg.numGroups ∧ s.lvl.length = s.cfg.numGroups := by
  simp [Memory.wf]

theorem pinArray_length {s : State} (h : Memory.wf s = true) (r : PinReg) :
    (s.pinArray r).length = s.cfg.numGroups := by
  rw [Memory.wf_iff] at h
  cases r
  · exact h.1
  · exact h.2

theorem memory_wf_setPinByte {s : State} (h : Memory.wf s = true) (r : PinReg) (g : Nat) (v : Byte) :
    Memory.wf (s.setPinByte r g v) = true := by
  cases r <;> simpa [Memory.wf, State.setPinByte] using h

theorem memory_wf_drivePinBit {s : State} (h : Memory.wf s = true) (r : PinReg) (g : Nat) (b : PinIndex) (x : Bool) :
    Memory.wf (s.drivePinBit r g b x) = true :=
  memory_wf_setPinByte h r g _

theorem memory_wf_setChannel {s : State} (h : Memory.wf s = true) (i : Nat) (c : Channel) :
    Memory.wf (s.setChannel i c) = true := h

theorem memory_wf_reset : Memory.wf State.reset = true := by decide

end Sys2Proof.Machine
end

