-- ==== Sys2Proof/Laws/Registry.lean ====
section
/-! SUPPORT. Everything REGISTER and SET_DUTY can do (40_registry R81, R84), and the RESULT words as numerals. -/

namespace Sys2Proof.Machine

/-! ### RESULT (10_state R32, 60_exceptions R106) -/

theorem resultOk_eq (v : Byte) : resultOk v = 0x00000400 ||| v.zeroExtend 32 := by
  revert v
  decide

theorem resultFull_eq : resultFull = 0x000005FF := by decide
theorem resultInvalidIndex_eq : resultInvalidIndex = 0x000006FF := by decide
theorem resultIllegal_eq : resultIllegal = 0x000007FF := by decide

theorem legalResult_resultOk (v : Byte) : LegalResult (resultOk v) := .inr (.inl ⟨v, resultOk_eq v⟩)
theorem legalResult_resultFull : LegalResult resultFull := .inr (.inr (.inl resultFull_eq))
theorem legalResult_resultInvalidIndex : LegalResult resultInvalidIndex :=
  .inr (.inr (.inr (.inl resultInvalidIndex_eq)))
theorem legalResult_resultIllegal : LegalResult resultIllegal := .inr (.inr (.inr (.inr resultIllegal_eq)))

/-! ### Bits of one -/

theorem ten_ne_one_iff (t : BitVec 1) : t ≠ 1 ↔ t = 0 := by
  revert t
  decide

/-! ### REGISTER -/

theorem aliasesHwPin_iff (c : Config) (e l : Byte) (p : PinIndex) :
    aliasesHwPin c e l p = true ↔ (e, p) ∈ c.hwPwmPins ∨ (l, p) ∈ c.hwPwmPins := by
  simp [aliasesHwPin]

/-- REGISTER's four outcomes, each with the condition under which it is the one (60_exceptions R109). -/
theorem execRegister_cases (e l : Byte) (p : PinIndex) (s : State) :
    (s.ten = 1 ∧ execRegister e l p s = raise .registerWhileTicking s)
    ∨ (s.ten ≠ 1 ∧ s.count.toNat = s.cfg.capacity ∧ execRegister e l p s = complete resultFull s)
    ∨ (s.ten ≠ 1 ∧ s.count.toNat ≠ s.cfg.capacity ∧ aliasesHwPin s.cfg e l p = true
        ∧ execRegister e l p s = raise .pinAlias s)
    ∨ (s.ten ≠ 1 ∧ s.count.toNat ≠ s.cfg.capacity ∧ aliasesHwPin s.cfg e l p = false
        ∧ execRegister e l p s = complete (resultOk (s.count.zeroExtend 8)) (appendChannel e l p s)) := by
  unfold execRegister
  by_cases h1 : s.ten = 1
  · exact .inl ⟨h1, if_pos h1⟩
  · refine .inr ?_
    rw [if_neg h1]
    by_cases h2 : s.count.toNat = s.cfg.capacity
    · exact .inl ⟨h1, h2, if_pos h2⟩
    · refine .inr ?_
      rw [if_neg h2]
      cases h3 : aliasesHwPin s.cfg e l p with
      | true => exact .inl ⟨h1, h2, rfl, rfl⟩
      | false => exact .inr ⟨h1, h2, rfl, rfl⟩

theorem appendChannel_frame (e l : Byte) (p : PinIndex) (s : State) :
    appendChannel e l p s = { s with
      count := s.count + 1, channels := s.channels.set s.count.toNat (newChannel e l p),
      en := (appendChannel e l p s).en } := rfl

@[simp] theorem appendChannel_cfg (e l : Byte) (p : PinIndex) (s : State) : (appendChannel e l p s).cfg = s.cfg := rfl
@[simp] theorem appendChannel_lvl (e l : Byte) (p : PinIndex) (s : State) : (appendChannel e l p s).lvl = s.lvl := rfl
@[simp] theorem appendChannel_channels (e l : Byte) (p : PinIndex) (s : State) :
    (appendChannel e l p s).channels = s.channels.set s.count.toNat (newChannel e l p) := rfl
@[simp] theorem appendChannel_count (e l : Byte) (p : PinIndex) (s : State) :
    (appendChannel e l p s).count = s.count + 1 := rfl

theorem appendChannel_en_length (e l : Byte) (p : PinIndex) (s : State) :
    (appendChannel e l p s).en.length = s.en.length := by
  simp [appendChannel, State.drivePinBit]

theorem appendChannel_channel_new {s : State} (e l : Byte) (p : PinIndex) (h : s.count.toNat < s.channels.length) :
    (appendChannel e l p s).channel s.count.toNat = newChannel e l p := by
  simp only [appendChannel, channel_with_count, drivePinBit_channel]
  exact channel_setChannel_same _ h

theorem appendChannel_channel_other (e l : Byte) (p : PinIndex) (s : State) {j : Nat} (h : j ≠ s.count.toNat) :
    (appendChannel e l p s).channel j = s.channel j := by
  simp only [appendChannel, channel_with_count, drivePinBit_channel]
  exact channel_setChannel_other s _ h

/-- The enable bits after a successful REGISTER (R81, 20_memory R59). -/
theorem appendChannel_enable {s : State} (e l : Byte) (p : PinIndex) (h : e.toNat < s.en.length) :
    bitOf ((appendChannel e l p s).pinByte .en e.toNat) p = true := by
  simp only [appendChannel, pinByte_with_count]
  rw [bitOf_drivePinBit _ _ (by simpa [State.pinArray] using h)]
  simp

theorem appendChannel_enable_other (e l : Byte) (p : PinIndex) (s : State) {g : Nat} {b : PinIndex}
    (h : ¬ (g = e.toNat ∧ b = p)) :
    bitOf ((appendChannel e l p s).pinByte .en g) b = bitOf (s.pinByte .en g) b := by
  simp only [appendChannel, pinByte_with_count]
  rw [bitOf_drivePinBit_other _ _ h]
  simp

/-- In a registry of at most 12 entries COUNT goes up by one without wrapping (10_state R4, R23). -/
theorem count_succ_toNat {s : State} (h : s.Inv) :
    (s.count + 1).toNat = s.count.toNat + 1 := by
  have h1 := h.count_le
  have h2 := h.cfg_ok.capacity_le
  rw [BitVec.toNat_add]
  simp
  omega

theorem count_lt_length {s : State} (h : s.Inv) (hne : s.count.toNat ≠ s.cfg.capacity) :
    s.count.toNat < s.channels.length := by
  have h1 := h.count_le
  rw [h.registry_length]
  omega

theorem en_length {s : State} (h : s.Inv) : s.en.length = s.cfg.numGroups := ((Memory.wf_iff s).mp h.pins_wf).1
theorem lvl_length {s : State} (h : s.Inv) : s.lvl.length = s.cfg.numGroups := ((Memory.wf_iff s).mp h.pins_wf).2

/-- The level byte a valid entry names exists. -/
theorem lgrp_lt_lvl_length {s : State} (h : s.Inv) {i : Nat} (hi : i < s.count.toNat) :
    (s.channel i).lgrp.toNat < s.lvl.length := by
  rw [lvl_length h]
  exact (h.entries_legal i hi).lgrp_lt

theorem valid_lt_length {s : State} (h : s.Inv) {i : Nat} (hi : i < s.count.toNat) : i < s.channels.length := by
  rw [h.registry_length]
  exact lt_of_lt_of_le hi h.count_le

/-! ### SET_DUTY -/

/-- SET_DUTY's two outcomes (R84). -/
theorem execSetDuty_cases (i v : Byte) (s : State) :
    (s.count.toNat ≤ i.toNat ∧ execSetDuty i v s = complete resultInvalidIndex s)
    ∨ (i.toNat < s.count.toNat ∧ execSetDuty i v s
        = complete (resultOk i) (s.setChannel i.toNat (changeDuty s.ten v (s.channel i.toNat)))) := by
  unfold execSetDuty namesChannel State.isValid
  by_cases h : i.toNat < s.count.toNat
  · simp [h]
  · simp [h, not_lt.mp h]

@[simp] theorem changeDuty_egrp (t : BitVec 1) (v : Byte) (c : Channel) : (changeDuty t v c).egrp = c.egrp := by
  unfold changeDuty; split <;> rfl
@[simp] theorem changeDuty_lgrp (t : BitVec 1) (v : Byte) (c : Channel) : (changeDuty t v c).lgrp = c.lgrp := by
  unfold changeDuty; split <;> rfl
@[simp] theorem changeDuty_pin (t : BitVec 1) (v : Byte) (c : Channel) : (changeDuty t v c).pin = c.pin := by
  unfold changeDuty; split <;> rfl
@[simp] theorem changeDuty_duty (t : BitVec 1) (v : Byte) (c : Channel) : (changeDuty t v c).duty = v := by
  unfold changeDuty; split <;> rfl

end Sys2Proof.Machine
end

