-- ==== Sys2Proof/Laws/Scheduler.lean ====
section
/-! SUPPORT. Everything TICK can do (41_scheduler R89): its loop's frame, what it leaves of each entry, and what it leaves
of each level bit. -/

namespace Sys2Proof.Machine

/-! ### The loop body -/

theorem driveChannel_frame (s : State) (i : Nat) :
    driveChannel s i = { s with
      channels := (driveChannel s i).channels, lvl := (driveChannel s i).lvl, draws := (driveChannel s i).draws } := rfl

theorem driveChannel_channel (s : State) (i j : Nat) :
    (driveChannel s i).channel j = if j = i then { s.channel i with stale := false } else s.channel j := by
  simp only [driveChannel, drivePinBit_channel]
  by_cases h : j = i
  · subst h
    by_cases hl : j < s.channels.length
    · rw [channel_setChannel_same _ (by simpa using hl)]
      simp
    · have hb : s.channel j = Channel.blank := by simp [State.channel, not_lt.mp hl]
      rw [setChannel_beyond _ (by simpa using hl)]
      simp [hb, Channel.blank]
  · rw [channel_setChannel_other _ _ h]
    simp [h]

theorem driveChannel_lvl_length (s : State) (i : Nat) : (driveChannel s i).lvl.length = s.lvl.length := by
  simp [driveChannel, State.drivePinBit]

theorem driveChannel_channels_length (s : State) (i : Nat) :
    (driveChannel s i).channels.length = s.channels.length := by
  simp [driveChannel]

/-- The bit the entry names takes (TCNT < duty in force). -/
theorem driveChannel_level (s : State) (i : Nat) (h : (s.channel i).lgrp.toNat < s.lvl.length) :
    bitOf ((driveChannel s i).pinByte .lvl (s.channel i).lgrp.toNat) (s.channel i).pin
      = decide (s.tcnt < dutyInForce s.draws (s.channel i)) := by
  simp only [driveChannel]
  rw [bitOf_drivePinBit _ _ (by simpa [State.pinArray] using h)]
  simp

/-- Every other level bit keeps its value. -/
theorem driveChannel_level_other (s : State) (i g : Nat) (b : PinIndex)
    (h : ¬ ((s.channel i).lgrp.toNat = g ∧ (s.channel i).pin = b)) :
    bitOf ((driveChannel s i).pinByte .lvl g) b = bitOf (s.pinByte .lvl g) b := by
  simp only [driveChannel]
  rw [bitOf_drivePinBit_other _ _ (by rintro ⟨rfl, rfl⟩; exact h ⟨rfl, rfl⟩)]
  simp

/-! ### The loop -/

theorem driveChannels_frame (n : Nat) (s : State) :
    driveChannels n s = { s with
      channels := (driveChannels n s).channels, lvl := (driveChannels n s).lvl, draws := (driveChannels n s).draws } := by
  induction n with
  | zero => rfl
  | succ n ih =>
    simp only [driveChannels]
    rw [ih]
    rfl

theorem driveChannels_tcnt (n : Nat) (s : State) : (driveChannels n s).tcnt = s.tcnt := by
  rw [driveChannels_frame]

theorem driveChannels_lvl_length (n : Nat) (s : State) : (driveChannels n s).lvl.length = s.lvl.length := by
  induction n with
  | zero => rfl
  | succ n ih => rw [driveChannels, driveChannel_lvl_length, ih]

theorem driveChannels_channels_length (n : Nat) (s : State) :
    (driveChannels n s).channels.length = s.channels.length := by
  induction n with
  | zero => rfl
  | succ n ih => rw [driveChannels, driveChannel_channels_length, ih]

theorem driveChannels_channel (n : Nat) (s : State) (j : Nat) :
    (driveChannels n s).channel j = if j < n then { s.channel j with stale := false } else s.channel j := by
  induction n with
  | zero => simp [driveChannels]
  | succ n ih =>
    rw [driveChannels, driveChannel_channel]
    by_cases h : j = n
    · subst h
      rw [ih]
      simp
    · rw [if_neg h, ih]
      by_cases hlt : j < n
      · simp [hlt, Nat.lt_succ_of_lt hlt]
      · simp [hlt, show ¬ j < n + 1 by omega]

/-- A level bit that none of the first `n` entries names keeps its value. -/
theorem driveChannels_level_other (n : Nat) (s : State) (g : Nat) (b : PinIndex)
    (h : ∀ i, i < n → ¬ ((s.channel i).lgrp.toNat = g ∧ (s.channel i).pin = b)) :
    bitOf ((driveChannels n s).pinByte .lvl g) b = bitOf (s.pinByte .lvl g) b := by
  induction n with
  | zero => rfl
  | succ n ih =>
    rw [driveChannels, driveChannel_level_other, ih fun i hi => h i (Nat.lt_succ_of_lt hi)]
    rw [driveChannels_channel, if_neg (lt_irrefl n)]
    exact h n (Nat.lt_succ_self n)

/-- The level bit of an entry that is the highest on its bit among the first `n` is what that entry drives: (TCNT < d) with
`d` the duty in force under one of the draws (R89, R92). -/
theorem driveChannels_level (n : Nat) (s : State) (i : Nat) (hi : i < n)
    (hg : (s.channel i).lgrp.toNat < s.lvl.length)
    (htop : ∀ j, i < j → j < n → ¬ ((s.channel j).lgrp = (s.channel i).lgrp ∧ (s.channel j).pin = (s.channel i).pin)) :
    ∃ k, bitOf ((driveChannels n s).pinByte .lvl (s.channel i).lgrp.toNat) (s.channel i).pin
      = decide (s.tcnt < dutyInForce k (s.channel i)) := by
  induction n with
  | zero => omega
  | succ n ih =>
    have hc : (driveChannels n s).channel n = s.channel n := by
      rw [driveChannels_channel, if_neg (lt_irrefl n)]
    by_cases h : i = n
    · subst h
      refine ⟨(driveChannels i s).draws, ?_⟩
      have := driveChannel_level (driveChannels i s) i (by rw [hc, driveChannels_lvl_length]; exact hg)
      rwa [hc, driveChannels_tcnt] at this
    · have hlt : i < n := by omega
      obtain ⟨k, hk⟩ := ih hlt fun j h1 h2 => htop j h1 (Nat.lt_succ_of_lt h2)
      refine ⟨k, ?_⟩
      rw [driveChannels, driveChannel_level_other, hk]
      rw [hc]
      rintro ⟨h1, h2⟩
      exact htop n hlt (Nat.lt_succ_self n) ⟨BitVec.toNat_inj.mp h1, h2⟩

/-! ### TICK -/

theorem dutyInForce_cases (k : Nat) (c : Channel) :
    dutyInForce k c = c.duty ∨ (c.stale = true ∧ dutyInForce k c = c.dprev) := by
  unfold dutyInForce
  split
  · simp_all
  · exact .inl rfl

theorem dutyInForce_not_stale {c : Channel} (h : c.stale = false) (k : Nat) : dutyInForce k c = c.duty := by
  simp [dutyInForce, h]

theorem tickEffect_frame (s : State) :
    tickEffect s = { s with
      tcnt := s.tcnt + 1, channels := (tickEffect s).channels, lvl := (tickEffect s).lvl, draws := (tickEffect s).draws } := by
  unfold tickEffect
  conv_lhs => rw [driveChannels_frame]
  rfl

@[simp] theorem tickEffect_tcnt (s : State) : (tickEffect s).tcnt = s.tcnt + 1 := by rw [tickEffect_frame]
@[simp] theorem tickEffect_cfg (s : State) : (tickEffect s).cfg = s.cfg := by rw [tickEffect_frame]
@[simp] theorem tickEffect_count (s : State) : (tickEffect s).count = s.count := by rw [tickEffect_frame]
@[simp] theorem tickEffect_ten (s : State) : (tickEffect s).ten = s.ten := by rw [tickEffect_frame]
@[simp] theorem tickEffect_result (s : State) : (tickEffect s).result = s.result := by rw [tickEffect_frame]
@[simp] theorem tickEffect_en (s : State) : (tickEffect s).en = s.en := by rw [tickEffect_frame]
@[simp] theorem tickEffect_faults (s : State) : (tickEffect s).faults = s.faults := by rw [tickEffect_frame]
@[simp] theorem tickEffect_inputs (s : State) : (tickEffect s).inputs = s.inputs := by rw [tickEffect_frame]
@[simp] theorem tickEffect_observed (s : State) : (tickEffect s).observed = s.observed := by rw [tickEffect_frame]

@[simp] theorem tickEffect_lvl_length (s : State) : (tickEffect s).lvl.length = s.lvl.length := by
  simp [tickEffect, driveChannels_lvl_length]

@[simp] theorem tickEffect_channels_length (s : State) : (tickEffect s).channels.length = s.channels.length := by
  simp [tickEffect, driveChannels_channels_length]

theorem tickEffect_channel (s : State) (j : Nat) :
    (tickEffect s).channel j = if j < s.count.toNat then { s.channel j with stale := false } else s.channel j := by
  simp [tickEffect, driveChannels_channel]

@[simp] theorem tickEffect_egrp (s : State) (j : Nat) : ((tickEffect s).channel j).egrp = (s.channel j).egrp := by
  rw [tickEffect_channel]; split <;> rfl
@[simp] theorem tickEffect_lgrp (s : State) (j : Nat) : ((tickEffect s).channel j).lgrp = (s.channel j).lgrp := by
  rw [tickEffect_channel]; split <;> rfl
@[simp] theorem tickEffect_pin (s : State) (j : Nat) : ((tickEffect s).channel j).pin = (s.channel j).pin := by
  rw [tickEffect_channel]; split <;> rfl
@[simp] theorem tickEffect_duty (s : State) (j : Nat) : ((tickEffect s).channel j).duty = (s.channel j).duty := by
  rw [tickEffect_channel]; split <;> rfl

theorem tickEffect_stale {s : State} {j : Nat} (h : j < s.count.toNat) : ((tickEffect s).channel j).stale = false := by
  rw [tickEffect_channel, if_pos h]

theorem tickEffect_topOnItsBit {s : State} {i : Nat} (h : TopOnItsBit s i) : TopOnItsBit (tickEffect s) i := by
  intro j h1 h2
  simpa using h j h1 (by simpa using h2)

/-! ### What TICK does not read: the inputs, RESULT, and, with no window open, the draws -/

theorem driveChannels_with_inputs (n : Nat) (s : State) (l : List Event) :
    driveChannels n { s with inputs := l } = { driveChannels n s with inputs := l } := by
  induction n with
  | zero => rfl
  | succ n ih => rw [driveChannels, ih, driveChannels]; rfl

theorem driveChannels_with_result (n : Nat) (s : State) (r : Word) :
    driveChannels n { s with result := r } = { driveChannels n s with result := r } := by
  induction n with
  | zero => rfl
  | succ n ih => rw [driveChannels, ih, driveChannels]; rfl

theorem tickEffect_with_inputs (s : State) (l : List Event) :
    tickEffect { s with inputs := l } = { tickEffect s with inputs := l } :=
  driveChannels_with_inputs s.count.toNat (advanceCounter s) l

theorem tickEffect_with_result (s : State) (r : Word) :
    tickEffect { s with result := r } = { tickEffect s with result := r } :=
  driveChannels_with_result s.count.toNat (advanceCounter s) r

/-- With no window open among the first `n` entries the loop makes no draw and does not depend on the draws. -/
theorem driveChannels_with_draws (n : Nat) (s : State) (m : Nat) (h : ∀ i, i < n → (s.channel i).stale = false) :
    (driveChannels n s).draws = s.draws
      ∧ driveChannels n { s with draws := m } = { driveChannels n s with draws := m } := by
  induction n with
  | zero => exact ⟨rfl, rfl⟩
  | succ n ih =>
    obtain ⟨h1, h2⟩ := ih fun i hi => h i (Nat.lt_succ_of_lt hi)
    have hc : ((driveChannels n s).channel n).stale = false := by
      rw [driveChannels_channel, if_neg (lt_irrefl n)]
      exact h n (Nat.lt_succ_self n)
    constructor
    · simp [driveChannels, driveChannel, hc, h1]
    · rw [driveChannels, h2, driveChannels]
      unfold driveChannel
      simp only [channel_with_draws, hc, dutyInForce, Bool.false_and]
      rfl

/-- A level bit no valid entry names keeps its value. -/
theorem tickEffect_level_other (s : State) (g : Nat) (b : PinIndex)
    (h : ∀ i, i < s.count.toNat → ¬ ((s.channel i).lgrp.toNat = g ∧ (s.channel i).pin = b)) :
    bitOf ((tickEffect s).pinByte .lvl g) b = bitOf (s.pinByte .lvl g) b := by
  rw [tickEffect, driveChannels_level_other _ _ _ _ (by simpa using h)]
  simp

/-- The level a TICK leaves for an entry that is the highest on its bit, under some draw. -/
theorem tickEffect_levelOf {s : State} {i : Nat} (hi : i < s.count.toNat)
    (hg : (s.channel i).lgrp.toNat < s.lvl.length) (htop : TopOnItsBit s i) :
    ∃ k, levelOf (tickEffect s) i = decide (s.tcnt + 1 < dutyInForce k (s.channel i)) := by
  have := driveChannels_level s.count.toNat (advanceCounter s) i hi (by simpa using hg)
    (fun j h1 h2 => by simpa using htop j h1 h2)
  obtain ⟨k, hk⟩ := this
  refine ⟨k, ?_⟩
  rw [levelOf, tickEffect_lgrp, tickEffect_pin]
  exact hk

/-- The level a TICK leaves for such an entry with no open window. -/
theorem tickEffect_levelOf_not_stale {s : State} {i : Nat} (hi : i < s.count.toNat)
    (hg : (s.channel i).lgrp.toNat < s.lvl.length) (htop : TopOnItsBit s i) (hs : (s.channel i).stale = false) :
    levelOf (tickEffect s) i = decide (s.tcnt + 1 < (s.channel i).duty) := by
  obtain ⟨k, hk⟩ := tickEffect_levelOf hi hg htop
  rw [hk, dutyInForce_not_stale hs]

end Sys2Proof.Machine
end

