-- ==== Sys2Proof/Laws/Step.lean ====
section
/-! SUPPORT. What a step can do, said once: the step takes the next event (00_scope R12), an event is a host operation or a
TICK, and a host operation observes, is ignored, executes a command, or writes a pin byte (20_memory R51 to R57). -/

namespace Sys2Proof.Machine

/-! ### The checks of an access -/

theorem busCheck_ok_iff (c : Config) (a n off : Nat) :
    busCheck c a n = .ok off ↔ n = 4 ∧ c.base ≤ a ∧ a < c.base + 0x40 ∧ (a - c.base) % 4 = 0 ∧ off = a - c.base := by
  unfold busCheck
  split
  · simp; omega
  · split
    · simp; omega
    · split
      · simp; omega
      · simp; omega

theorem groupCheck_ok_iff (c : Config) (g g' : Nat) : groupCheck c g = .ok g' ↔ g < c.numGroups ∧ g' = g := by
  unfold groupCheck
  split
  · simp; omega
  · simp; omega

theorem busCheck_word (c : Config) {k : Nat} (h : k < 16) : busCheck c (c.base + 4 * k) 4 = .ok (4 * k) := by
  rw [busCheck_ok_iff]
  omega

theorem windowReg_eq_cmd_iff (off : Nat) : windowReg off = .cmd ↔ off = 0 := by
  unfold windowReg
  split
  · simp_all
  · split
    · simp_all
    · split
      · simp_all
      · split
        · simp_all
        · simp_all

theorem windowReg_chan {i : Nat} (h : i < 12) : windowReg (0x10 + 4 * i) = .chan i := by
  unfold windowReg
  rw [if_neg (by omega), if_neg (by omega), if_neg (by omega), if_neg (by omega)]
  congr 1
  omega

/-! ### The host -/

/-- A write to a window register is a command or nothing (20_memory R55). -/
theorem windowWrite_cases (v : Word) (s : State) (w : WindowReg) :
    (w = .cmd ∧ windowWrite v s w = exec (decode s.cfg.numGroups v) s) ∨ (w ≠ .cmd ∧ windowWrite v s w = .next s) := by
  cases w <;> simp [windowWrite]

/-- Everything a host step that answers a next state can do. -/
theorem hostStep_cases {op : HostOp} {s t : State} (h : hostStep op s = .next t) :
    (((∃ a n, op = .memRead a n) ∨ ∃ r g, op = .pinRead r g) ∧ ∃ o, t = { s with observed := s.observed ++ [o] })
    ∨ ((∃ a n v, op = .memWrite a n v ∧ a ≠ s.cfg.base) ∧ t = s)
    ∨ (∃ v, op = .memWrite s.cfg.base 4 v ∧ exec (decode s.cfg.numGroups v) s = .next t)
    ∨ (∃ r g v, op = .pinWrite r g v ∧ g < s.cfg.numGroups ∧ t = s.setPinByte r g v) := by
  cases op with
  | memRead a n =>
    simp only [hostStep, memRead] at h
    split at h
    · cases h
    · exact .inl ⟨.inl ⟨a, n, rfl⟩, _, (Host.Outcome.next.inj h).symm⟩
  | memWrite a n v =>
    simp only [hostStep, memWrite] at h
    split at h
    · cases h
    · rename_i off hb
      obtain ⟨rfl, h1, h2, h3, rfl⟩ := (busCheck_ok_iff _ _ _ _).mp hb
      rcases windowWrite_cases v s (windowReg (a - s.cfg.base)) with ⟨hc, hw⟩ | ⟨hc, hw⟩
      · rw [hw] at h
        have ha : a = s.cfg.base := by
          have := (windowReg_eq_cmd_iff _).mp hc
          omega
        subst ha
        exact .inr (.inr (.inl ⟨v, rfl, h⟩))
      · rw [hw] at h
        refine .inr (.inl ⟨⟨a, 4, v, rfl, ?_⟩, (Host.Outcome.next.inj h).symm⟩)
        rintro rfl
        exact hc ((windowReg_eq_cmd_iff _).mpr (by omega))
  | pinRead r g =>
    simp only [hostStep, pinRead] at h
    split at h
    · cases h
    · exact .inl ⟨.inr ⟨r, g, rfl⟩, _, (Host.Outcome.next.inj h).symm⟩
  | pinWrite r g v =>
    simp only [hostStep, pinWrite] at h
    split at h
    · cases h
    · rename_i g' hg
      obtain ⟨h1, rfl⟩ := (groupCheck_ok_iff _ _ _).mp hg
      exact .inr (.inr (.inr ⟨r, g', v, rfl, h1, (Host.Outcome.next.inj h).symm⟩))

/-- A write to CMD executes the command of R75 in the same step. -/
theorem hostStep_cmd (s : State) (v : Word) :
    hostStep (.memWrite s.cfg.base 4 v) s = exec (decode s.cfg.numGroups v) s := by
  have hb : busCheck s.cfg s.cfg.base 4 = .ok 0 := by
    rw [busCheck_ok_iff]
    omega
  simp only [hostStep, memWrite, hb]
  rfl

/-! ### Instructions that always complete -/

theorem exec_next (i : Instr) (s : State) : ∃ t, exec i s = .next t := by
  cases i with
  | register e l p =>
    rcases execRegister_cases e l p s with ⟨_, h⟩ | ⟨_, _, h⟩ | ⟨_, _, _, h⟩ | ⟨_, _, _, h⟩ <;> exact ⟨_, h⟩
  | setDuty j v => rcases execSetDuty_cases j v s with ⟨_, h⟩ | ⟨_, h⟩ <;> exact ⟨_, h⟩
  | tick => exact ⟨_, rfl⟩
  | setCtrl t => exact ⟨_, rfl⟩
  | illegal w => exact ⟨_, rfl⟩

/-! ### The tick source and the step -/

/-- A tick event that answers a next state had TEN = 1 and ran TICK (42_control R101). -/
theorem tickEvent_cases {s t : State} (h : tickEvent s = .next t) : s.ten = 1 ∧ t = tickEffect s := by
  unfold tickEvent at h
  split at h
  · exact ⟨by assumption, (Host.Outcome.next.inj h).symm⟩
  · cases h

/-- A step with an event to take is that event's step. -/
theorem step_event {s : State} (hf : s.faults = []) {ev : Event} {rest : List Event} (hi : s.inputs = ev :: rest) :
    step s = eventStep ev { s with inputs := rest } := by
  simp [step, nextStep, hf, hi]

/-- A step of a state with a fault recorded answers that fault (60_exceptions R107). -/
theorem step_fault {s : State} {r : Fault} {rs : List Fault} (hf : s.faults = r :: rs) : step s = .fault r := by
  simp [step, nextStep, hf]

/-- Everything a step that answers a next state can do: FAULTS was empty, and either no event was left and nothing
happened, or the next event happened. -/
theorem step_cases {s t : State} (h : step s = .next t) :
    s.faults = [] ∧ ((s.inputs = [] ∧ t = s)
      ∨ ∃ ev rest, s.inputs = ev :: rest ∧ eventStep ev { s with inputs := rest } = .next t) := by
  unfold step nextStep at h
  split at h
  · cases h
  · rename_i hf
    refine ⟨hf, ?_⟩
    split at h
    · exact .inl ⟨by assumption, (Host.Outcome.next.inj h).symm⟩
    · exact .inr ⟨_, _, by assumption, h⟩

/-- One step of a run of several. -/
theorem run_succ {s t : State} (h : step s = .next t) (k : Nat) :
    Host.Core.run Sys2Proof.core (k + 1) s = Host.Core.run Sys2Proof.core k t := by
  have h' : Host.Core.step Sys2Proof.core s = .next t := h
  have hr := Host.Core.run.eq_2 Sys2Proof.core s k
  rw [h'] at hr
  exact hr

end Sys2Proof.Machine
end

