-- ==== Sys2Proof/Tests/Slice0.lean ====
section
/-! SUPPORT. Tests. Every expected value is the spec's: the words and the vectors of 95_test_vectors, or an encoding of
30_encoding written out bit by bit. The last section holds, for every statement with hypotheses, states and operands that
meet them together. -/

namespace Sys2Proof.Tests

open Sys2Proof Sys2Proof.Machine

/-! ### Helpers -/

/-- A state like reset with these channels registered. -/
def withChannels (cs : List Channel) : State :=
  { State.reset with
    count := BitVec.ofNat 4 cs.length
    channels := cs ++ List.replicate (8 - cs.length) Channel.blank }

/-- A channel with both handles one group and no window open. -/
def plain (g : Byte) (p : PinIndex) (d : Byte) : Channel := ⟨g, g, p, d, false, 0⟩

/-- The next state of an answer, if it is one. -/
def nextOf (a : Host.Outcome State Fault Refusal) : Option State :=
  match a with
  | .next s => some s
  | .fault _ => none
  | .refused _ => none

/-- The refusal of an answer, if it is one. -/
def refusalOf (a : Host.Outcome State Fault Refusal) : Option Refusal :=
  match a with
  | .next _ => none
  | .fault _ => none
  | .refused r => some r

/-- The fault of an answer, if it is one. -/
def faultOf (a : Host.Outcome State Fault Refusal) : Option Fault :=
  match a with
  | .next _ => none
  | .fault r => some r
  | .refused _ => none

/-- The answer is the next state `t`. -/
theorem next_of {a : Host.Outcome State Fault Refusal} {t : State} (h : nextOf a = some t) : a = .next t := by
  cases a with
  | next s => exact congrArg _ (Option.some.inj h)
  | fault r => cases h
  | refused r => cases h

/-- Channel 0 of the spec's SET_DUTY and REGISTER vectors, {1, 1, 3}, with duty `d` and tick enable `ten`. -/
def oneChannel (d : Byte) (ten : BitVec 1) : State :=
  { withChannels [plain 1 3 d] with ten := ten, en := [0, 0x08, 0, 0] }

/-- The full registry of program P2: group 2, pins 0 to 7. -/
def fullRegistry : State :=
  { withChannels ([0, 1, 2, 3, 4, 5, 6, 7].map fun p => plain 2 p 0) with en := [0, 0, 0xFF, 0] }

/-- The start of the TICK vectors: one channel on group 1, pin 0. -/
def tickStart (d tcnt lvl1 : Byte) : State :=
  { withChannels [plain 1 0 d] with ten := 1, tcnt := tcnt, lvl := [0, lvl1, 0, 0] }

/-- Vectors T-8 and T-9: two channels on one bit. -/
def sharedBit (d0 d1 : Byte) : State :=
  { withChannels [plain 1 0 d0, plain 1 0 d1] with ten := 1, tcnt := 9 }

/-- Vector T-12: an open window, the old duty 255 and the new duty 0. -/
def openWindow : State := { withChannels [⟨1, 1, 0, 0, true, 255⟩] with ten := 1 }

/-! ### Well-formedness: each check refuses a term -/

theorem test_wf_smoke :
    (Instr.register 3 3 7).wf 4 = true ∧ (Instr.register 4 3 7).wf 4 = false ∧ (Instr.register 3 4 7).wf 4 = false
    ∧ (Instr.setDuty 255 255).wf 4 = true ∧ Instr.tick.wf 4 = true ∧ (Instr.setCtrl 1).wf 4 = true
    ∧ (Instr.illegal 0x00000000).wf 4 = true ∧ (Instr.illegal 0x01010103).wf 4 = false
    ∧ (Instr.illegal 0x02000080).wf 4 = false ∧ (Instr.illegal 0x04000001).wf 4 = false := by decide

theorem test_wf_groups_bound : (Instr.register 255 255 0).wf 256 = true ∧ (Instr.register 255 0 0).wf 255 = false := by
  decide

/-! ### Decoding: words written out bit by bit from R68 to R71 -/

/-- Format R: OP, EGRP = 1, LGRP = 2, five zeros, PIN = 5. -/
theorem test_decode_register :
    decode 4 (0b00000001#8 ++ 0b00000001#8 ++ 0b00000010#8 ++ 0b00000#5 ++ 0b101#3) = .register 1 2 5 := by decide

/-- Format D: OP, INDEX = 7, eight zeros, VALUE = 99. -/
theorem test_decode_setDuty :
    decode 4 (0b00000010#8 ++ 0b00000111#8 ++ 0b00000000#8 ++ 0b01100011#8) = .setDuty 7 99 := by decide

/-- Format T: the event code, TICK in a trace and ILLEGAL on CMD (R70, R80). -/
theorem test_decode_tick :
    decodeTrace 4 (0b00000011#8 ++ 0#24) = .tick ∧ decode 4 (0b00000011#8 ++ 0#24) = .illegal 0x03000000 := by decide

/-- Format C: OP, 23 zeros, T. -/
theorem test_decode_setCtrl :
    decode 4 (0b00000100#8 ++ 0#23 ++ 0b1#1) = .setCtrl 1 ∧ decode 4 (0b00000100#8 ++ 0#23 ++ 0b0#1) = .setCtrl 0 := by
  decide

/-- 95_test_vectors section 2.1, the words that are ILLEGAL with NUM_GROUPS = 4. -/
theorem test_decode_illegal_vectors :
    ([0x00000000, 0x01010108, 0x01040100, 0x01000400, 0x81010103, 0x020001FF, 0x03000000, 0x04000002, 0x05000000,
      0xFF000000] : List Word).all (fun w => decode 4 w == .illegal w) = true := by decide

/-- 95_test_vectors section 2.1, the words that are commands. -/
theorem test_decode_command_vectors :
    decode 4 0x01010103 = .register 1 1 3 ∧ decode 4 0x01030307 = .register 3 3 7
    ∧ decode 4 0x02000080 = .setDuty 0 128 ∧ decode 4 0x02FF00FF = .setDuty 255 255
    ∧ decode 4 0x04000000 = .setCtrl 0 ∧ decode 4 0x04000001 = .setCtrl 1 := by decide

/-- Every single reserved bit of the three command formats makes a word ILLEGAL (R76). -/
theorem test_decode_each_reserved_bit :
    (∀ k : Fin 32, 3 ≤ k.val → k.val < 8 → decode 4 (0x01010100 ||| 1#32 <<< k.val) = .illegal (0x01010100 ||| 1#32 <<< k.val))
    ∧ (∀ k : Fin 32, 8 ≤ k.val → k.val < 16 → decode 4 (0x02000000 ||| 1#32 <<< k.val) = .illegal (0x02000000 ||| 1#32 <<< k.val))
    ∧ (∀ k : Fin 32, 1 ≤ k.val → k.val < 24 → decode 4 (0x04000000 ||| 1#32 <<< k.val) = .illegal (0x04000000 ||| 1#32 <<< k.val)) := by
  decide

/-- The encoder gives the words of 95_test_vectors. -/
theorem test_encode_vectors :
    encode (.register 1 1 3) = 0x01010103 ∧ encode (.register 0 2 5) = 0x01000205 ∧ encode (.setDuty 1 200) = 0x020100C8
    ∧ encode .tick = 0x03000000 ∧ encode (.setCtrl 1) = 0x04000001 := by decide

/-- Byte k of a word is bits [8k+7:8k] (R52). -/
theorem test_bytes_little_endian :
    encodeBytes (.register 0 2 5) = [0x05, 0x02, 0x00, 0x01] ∧ wordOfBytes 0x63 0x00 0x07 0x02 = 0x02070063
    ∧ decodeTableWord 32 0x02070063 = some (.setDuty 7 99) ∧ decodeTableWord 32 0x03000000 = some .tick := by decide

/-- Fewer than four bytes are no command; a fifth byte is left over (R67). -/
theorem test_bytes_length :
    (decodeBytes 4 [0x05, 0x02, 0x00]).toOption = none
    ∧ (decodeBytes 4 [0x01, 0x00, 0x00, 0x04, 0xAA]).toOption = some (.setCtrl 1, [0xAA]) := by decide

/-! ### REGISTER (95_test_vectors section 2.2) -/

/-- Vectors R-1, R-8, R-9, R-10. -/
theorem test_register_appends :
    (nextOf (exec (.register 1 1 3) State.reset)).map (fun t => (t.count, t.channel 0, t.en, t.result, t.chan 0))
      = some (1, plain 1 3 0, [0, 0x08, 0, 0], 0x00000400, 0x83010100)
    ∧ (nextOf (exec (.register 0 2 5) (oneChannel 0 0))).map (fun t => (t.count, t.channel 1, t.en, t.result))
      = some (2, ⟨0, 2, 5, 0, false, 0⟩, [0x20, 0x08, 0, 0], 0x00000401)
    ∧ (nextOf (exec (.register 1 1 3) (oneChannel 0 0))).map (fun t => (t.channel 1, t.en, t.result))
      = some (plain 1 3 0, [0, 0x08, 0, 0], 0x00000401)
    ∧ (nextOf (exec (.register 1 1 0) { State.reset with en := [0, 0xF0, 0, 0] })).map (fun t => (t.en, t.lvl))
      = some ([0, 0xF1, 0, 0], [0, 0, 0, 0]) := by decide

/-- Vectors R-2 to R-6: FULL and the two faults, in the order of R109. -/
theorem test_register_stops :
    nextOf (exec (.register 2 2 0) fullRegistry) = some { fullRegistry with result := 0x000005FF }
    ∧ nextOf (exec (.register 0 0 0) { State.reset with ten := 1 })
      = some { State.reset with ten := 1, faults := [.registerWhileTicking] }
    ∧ nextOf (exec (.register 0 0 0) { fullRegistry with ten := 1 })
      = some { fullRegistry with ten := 1, faults := [.registerWhileTicking] }
    ∧ nextOf (exec (.register 3 3 1) State.reset) = some { State.reset with faults := [.pinAlias] }
    ∧ nextOf (exec (.register 3 3 0) fullRegistry) = some { fullRegistry with result := 0x000005FF } := by decide

/-! ### SET_DUTY (section 2.3) -/

/-- Vectors D-1 to D-4. -/
theorem test_setDuty_stopped :
    (nextOf (exec (.setDuty 0 128) (oneChannel 0 0))).map (fun t => (t.channel 0, t.result, t.chan 0))
      = some (plain 1 3 128, 0x00000400, 0x83010180)
    ∧ nextOf (exec (.setDuty 1 5) (oneChannel 0 0)) = some { oneChannel 0 0 with result := 0x000006FF }
    ∧ nextOf (exec (.setDuty 0 5) State.reset) = some { State.reset with result := 0x000006FF }
    ∧ nextOf (exec (.setDuty 255 255) fullRegistry) = some { fullRegistry with result := 0x000006FF } := by decide

/-- Vectors D-5, D-6 and D-7: the window opens once, and only while ticks are enabled. -/
theorem test_setDuty_window :
    (nextOf (exec (.setDuty 0 10) (oneChannel 128 1))).map (fun t => (t.channel 0, t.result, t.chan 0))
      = some (⟨1, 1, 3, 10, true, 128⟩, 0x00000400, 0x8301010A)
    ∧ (nextOf (exec (.setDuty 0 20) { withChannels [⟨1, 1, 3, 10, true, 128⟩] with ten := 1 })).map (fun t => t.channel 0)
      = some ⟨1, 1, 3, 20, true, 128⟩
    ∧ (nextOf (exec (.setDuty 0 10) (oneChannel 128 0))).map (fun t => t.channel 0) = some (plain 1 3 10) := by decide

/-! ### TICK (section 2.4) -/

/-- Vectors T-1 to T-4, T-6, T-8 to T-11, T-16: TCNT and LVL. -/
theorem test_tick_levels :
    nextOf (exec .tick { State.reset with ten := 1 }) = some { State.reset with ten := 1, tcnt := 1 }
    ∧ [tickStart 0 255 0x01, tickStart 1 255 0x00, tickStart 255 254 0x01, tickStart 128 127 0x01, sharedBit 0 255,
        sharedBit 255 0, tickStart 200 0 0xFE, tickStart 0 0 0xFF].map
        (fun s => (nextOf (exec .tick s)).map fun t => (t.tcnt, t.pinByte .lvl 1))
      = [some (0, 0x00), some (0, 0x01), some (255, 0x00), some (128, 0x00), some (10, 0x01), some (10, 0x00),
        some (1, 0xFF), some (1, 0xFE)]
    ∧ (nextOf (exec .tick { withChannels [⟨0, 2, 5, 10, false, 0⟩] with ten := 1 })).map (fun t => t.lvl)
      = some [0, 0, 0x20, 0] := by decide

/-- Vectors T-12 and T-13: with an open window the draw says which duty counts, and the window is closed; both draws are
admitted, and after the next TICK the bit is low either way. -/
theorem test_tick_window :
    (∀ n : Nat, (tickEffect { openWindow with draws := n }).channel 0 = ⟨1, 1, 0, 0, false, 255⟩
      ∧ (tickEffect { openWindow with draws := n }).pinByte .lvl 1 = if Config.staleDraw n then 0x01 else 0x00)
    ∧ [0x00, 0x01].map (fun v => (nextOf (exec .tick { withChannels [⟨1, 1, 0, 0, false, 255⟩] with
          ten := 1, tcnt := 1, lvl := [0, v, 0, 0] })).map fun t => (t.tcnt, t.pinByte .lvl 1))
      = [some (2, 0x00), some (2, 0x00)] := by
  constructor
  · intro n
    cases h : Config.staleDraw n <;>
      simp [tickEffect, driveChannels, driveChannel, dutyInForce, advanceCounter, openWindow, withChannels, State.channel,
        State.setChannel, State.drivePinBit, State.setPinByte, State.pinByte, State.pinArray, setBit, State.reset,
        State.resetWith, Config.vectors, h, List.replicate]
  · decide

/-! ### SET_CTRL and ILLEGAL (section 2.5) -/

/-- Vectors C-1 and C-2. -/
theorem test_setCtrl_vectors :
    (nextOf (exec (.setCtrl 1) State.reset)).map (fun t => (t.ten, t.status, t.result)) = some (1, 0x08010000, 0x00000400)
    ∧ nextOf (exec (.setCtrl 0) State.reset) = some { State.reset with result := 0x00000400 } := by decide

/-- Vectors C-3, I-1, I-2 and R-7, as host writes to CMD. -/
theorem test_illegal_vectors :
    nextOf (hostStep (.memWrite 0 4 0x04000003) State.reset) = some { State.reset with result := 0x000007FF }
    ∧ nextOf (hostStep (.memWrite 0 4 0x03000000) { State.reset with ten := 1, tcnt := 5 })
      = some { State.reset with ten := 1, tcnt := 5, result := 0x000007FF }
    ∧ nextOf (hostStep (.memWrite 0 4 0x00000000) fullRegistry) = some { fullRegistry with result := 0x000007FF }
    ∧ nextOf (hostStep (.memWrite 0 4 0x01050000) { State.reset with ten := 1 })
      = some { State.reset with ten := 1, result := 0x000007FF } := by decide

/-! ### Host accesses (section 2.6) -/

/-- Vectors B-1 to B-3, B-8 and B-9: what reads return. -/
theorem test_bus_reads :
    (nextOf (hostStep (.memRead 0x00 4) fullRegistry)).map (·.observed) = some [.word 0x00000000]
    ∧ (nextOf (hostStep (.memRead 0x0C 4) fullRegistry)).map (·.observed) = some [.word 0x00000000]
    ∧ (nextOf (hostStep (.memRead 0x3C 4) fullRegistry)).map (·.observed) = some [.word 0x00000000]
    ∧ (nextOf (hostStep (.memRead 0x08 4) { withChannels [plain 1 0 0, plain 1 1 0, plain 1 2 0] with ten := 1, tcnt := 0x2A })).map
        (·.observed) = some [.word 0x08012A03]
    ∧ (nextOf (hostStep (.memRead 0x08 4) State.reset)).map (·.observed) = some [.word 0x08000000]
    ∧ (nextOf (hostStep (.memRead 0x10 4) State.reset)).map (·.observed) = some [.word 0x00000000] := by decide

/-- Vectors B-4 to B-7 and T-15: an ignored write and the refusals; the width is checked before the alignment (R51). -/
theorem test_bus_refusals :
    nextOf (hostStep (.memWrite 0x08 4 0xFFFFFFFF) State.reset) = some State.reset
    ∧ refusalOf (hostStep (.memRead 0x08 2) State.reset) = some .busWidth
    ∧ refusalOf (hostStep (.memRead 0x06 4) State.reset) = some .busMisaligned
    ∧ refusalOf (hostStep (.memRead 0x06 2) State.reset) = some .busWidth
    ∧ refusalOf (hostStep (.pinWrite .en 4 0x01) State.reset) = some .noSuchGroup
    ∧ refusalOf (hostStep (.memRead 0x40 4) State.reset) = some .outsideWindow
    ∧ refusalOf (eventStep .tick State.reset) = some .tickWhileDisabled := by decide

/-- 10_state R38: a pin shows its level where its enable bit is 1 and none where it is 0. -/
theorem test_pin_levels :
    ({ State.reset with en := [0, 0x81, 0, 0], lvl := [0, 0x80, 0, 0] } : State).pinLevel 1 7 = some true
    ∧ ({ State.reset with en := [0, 0x81, 0, 0], lvl := [0, 0x80, 0, 0] } : State).pinLevel 1 0 = some false
    ∧ ({ State.reset with en := [0, 0x81, 0, 0], lvl := [0, 0xFF, 0, 0] } : State).pinLevel 1 1 = none := by decide

/-! ### Steps -/

/-- A step with nothing placed changes nothing (log 4); a state with a fault has no further step (program P5). -/
theorem test_step_idle_and_final :
    nextOf (step State.reset) = some State.reset
    ∧ faultOf (step { State.reset with faults := [.registerWhileTicking], inputs := [.tick] }) = some .registerWhileTicking := by
  decide

/-- A placed word runs as the next step: a command through CMD, the event code through the tick source. -/
theorem test_withFetchWord_runs :
    (nextOf (step (State.reset.withFetchWord 32 0x01010103))).map (fun t => (t.count, t.result, t.inputs))
      = some (1, 0x00000400, [])
    ∧ (nextOf (step (State.reset.withFetchWord 32 0x03000000))).map (fun t => (t.tcnt, t.ten, t.inputs))
      = some (1, 1, []) := by decide

/-! ### Assembly text (30_encoding R78 to R80) -/

/-- Lines of the programs of 95_test_vectors, a comment and the pseudo-lines among them. -/
theorem test_assemble_lines :
    assembleText 0 "REG 1, 1, 3 ; a comment\n\nDUTY 0, 0x80\nTICKS 2\nSTART".toList
      = some [.host (.memWrite 0 4 0x01010103), .host (.memWrite 0 4 0x02000080), .tick, .tick,
        .host (.memWrite 0 4 0x04000001)]
    ∧ assembleText 0x40 "CTRL 0\nWR STATUS, 0xFFFFFFFF\nRD CHAN11\nPWE 1, 0xF0\nPRL 1\nNOPCMD".toList
      = some [.host (.memWrite 0x40 4 0x04000000), .host (.memWrite 0x48 4 0xFFFFFFFF), .host (.memRead 0x7C 4),
        .host (.pinWrite .en 1 0xF0), .host (.pinRead .lvl 1), .host (.memWrite 0x40 4 0x00000000)] := by decide

/-- Operands out of the ranges of R78 and a misspelt line do not assemble. -/
theorem test_assemble_refuses :
    assembleText 0 "REG 1, 1, 8".toList = none ∧ assembleText 0 "DUTY 256, 0".toList = none
    ∧ assembleText 0 "CTRL 2".toList = none ∧ assembleText 0 "MOV 1, 2".toList = none
    ∧ assembleText 0 "REG 1, 1".toList = none := by decide

/-- The disassembler's mnemonics (R80). -/
theorem test_disassemble :
    disassemble 4 0x01000205 = "REG 0, 2, 5".toList ∧ disassemble 4 0x02FF00FF = "DUTY 255, 255".toList
    ∧ disassemble 4 0x04000001 = "CTRL 1".toList ∧ disassembleTrace 4 0x03000000 = "TICK".toList
    ∧ disassemble 4 0x03000000 = "ILLEGAL 0x03000000".toList ∧ disassemble 4 0x8101010F = "ILLEGAL 0x8101010F".toList := by
  decide

/-! ### Witnesses: states and operands that meet every statement's hypotheses together -/

/-- The invariant as a check on a concrete state. -/
def checkInv (s : State) : Bool :=
  decide (1 ≤ s.cfg.capacity) && decide (s.cfg.capacity ≤ 12) && decide (1 ≤ s.cfg.numGroups)
  && decide (s.cfg.numGroups ≤ 256) && decide (s.cfg.base % 64 = 0)
  && decide (s.cfg.pinInitEn.length = s.cfg.numGroups) && decide (s.cfg.pinInitLvl.length = s.cfg.numGroups)
  && decide (s.count.toNat ≤ s.cfg.capacity) && decide (s.channels.length = s.cfg.capacity) && Memory.wf s
  && decide (∀ i, i < s.count.toNat → (s.channel i).egrp.toNat < s.cfg.numGroups
      ∧ (s.channel i).lgrp.toNat < s.cfg.numGroups ∧ ((s.channel i).egrp, (s.channel i).pin) ∉ s.cfg.hwPwmPins
      ∧ ((s.channel i).lgrp, (s.channel i).pin) ∉ s.cfg.hwPwmPins)
  && (s.result == 0x00000000 || s.result == 0x000005FF)

/-- A state that passes the check meets the invariant. -/
theorem inv_of_check {s : State} (h : checkInv s = true) : s.Inv := by
  simp only [checkInv, Bool.and_eq_true, decide_eq_true_eq, Bool.or_eq_true, beq_iff_eq] at h
  obtain ⟨⟨⟨⟨⟨⟨⟨⟨⟨⟨⟨a1, a2⟩, a3⟩, a4⟩, a5⟩, a6⟩, a7⟩, a8⟩, a9⟩, a10⟩, a11⟩, a12⟩ := h
  refine ⟨⟨a1, a2, a3, a4, a5, a6, a7⟩, a8, a9, a10, fun i hi => ?_, ?_⟩
  · obtain ⟨b1, b2, b3, b4⟩ := a11 i hi
    exact ⟨b1, b2, b3, b4⟩
  · exact a12.imp id fun h => .inr (.inl h)

/-- No higher entry on the bit, from a bounded check. -/
theorem top_of_check {s : State} {i : Nat}
    (h : ∀ j, j < s.count.toNat → i < j → ¬ ((s.channel j).lgrp = (s.channel i).lgrp ∧ (s.channel j).pin = (s.channel i).pin)) :
    TopOnItsBit s i := fun j hij hj => h j hj hij

/-- The smallest block 00_scope R4 and R7 admit. -/
def smallestBlock : Config := ⟨1, 1, [], 0x40, [0xFF], [0x00]⟩
/-- The largest block they admit. -/
def largestBlock : Config :=
  ⟨12, 256, [(255, 7)], 0, List.replicate 256 0x00, List.replicate 256 0x00⟩

theorem test_witness_ResetViewsRead : Config.vectors.capacity = 8 := rfl

theorem vectors_ok : Config.vectors.Ok := ⟨by decide, by decide, by decide, by decide, by decide, by decide, by decide⟩

theorem test_witness_ResetMeetsTheInvariant : Config.vectors.Ok ∧ smallestBlock.Ok ∧ largestBlock.Ok :=
  ⟨vectors_ok, ⟨by decide, by decide, by decide, by decide, by decide, by decide, by decide⟩,
    ⟨by decide, by decide, by decide, by decide, by decide, List.length_replicate, List.length_replicate⟩⟩

theorem test_witness_DecodeOfEncodeIsTheInstruction :
    ((Instr.register 3 0 7).wf 4 = true ∧ Instr.register 3 0 7 ≠ .tick ∧ Instr.register 3 0 7 ≠ .illegal tickCode)
    ∧ ((Instr.setDuty 255 255).wf 4 = true ∧ Instr.setDuty 255 255 ≠ .tick ∧ Instr.setDuty 255 255 ≠ .illegal tickCode)
    ∧ ((Instr.setCtrl 1).wf 4 = true ∧ Instr.setCtrl 1 ≠ .tick ∧ Instr.setCtrl 1 ≠ .illegal tickCode)
    ∧ ((Instr.illegal 0xFFFFFFFF).wf 4 = true ∧ Instr.illegal 0xFFFFFFFF ≠ .tick
      ∧ Instr.illegal 0xFFFFFFFF ≠ .illegal tickCode)
    ∧ (Instr.illegal tickCode).wf 4 = true ∧ Instr.illegal tickCode ≠ .tick
    ∧ Instr.tick.wf 4 = true ∧ Instr.tick ≠ .illegal tickCode := by decide

/-- Each arm of each clause, at the edges of its fields. -/
theorem test_witness_EveryWordHasOneOutcome :
    ((0x01030307#32).toNat / 2 ^ 24 = 0x01 ∧ (0x01030307#32).toNat / 2 ^ 3 % 2 ^ 5 = 0
      ∧ (0x01030307#32).toNat / 2 ^ 16 % 2 ^ 8 < 4 ∧ (0x01030307#32).toNat / 2 ^ 8 % 2 ^ 8 < 4)
    ∧ ((0x01040307#32).toNat / 2 ^ 24 = 0x01 ∧ ¬ (0x01040307#32).toNat / 2 ^ 16 % 2 ^ 8 < 4)
    ∧ ((0x02FF00FF#32).toNat / 2 ^ 24 = 0x02 ∧ (0x02FF00FF#32).toNat / 2 ^ 8 % 2 ^ 8 = 0)
    ∧ ((0x020001FF#32).toNat / 2 ^ 24 = 0x02 ∧ (0x020001FF#32).toNat / 2 ^ 8 % 2 ^ 8 ≠ 0)
    ∧ ((0x04000001#32).toNat / 2 ^ 24 = 0x04 ∧ (0x04000001#32).toNat / 2 % 2 ^ 23 = 0)
    ∧ ((0x04000002#32).toNat / 2 ^ 24 = 0x04 ∧ (0x04000002#32).toNat / 2 % 2 ^ 23 ≠ 0)
    ∧ ((0x03000000#32).toNat / 2 ^ 24 ≠ 0x01 ∧ (0x03000000#32).toNat / 2 ^ 24 ≠ 0x02
      ∧ (0x03000000#32).toNat / 2 ^ 24 ≠ 0x04) := by decide

theorem test_witness_LinesAssembleToTheirWords :
    lineOf (.register 255 255 7) = some (.reg 255 255 7) ∧ lineOf (.setDuty 255 255) = some (.duty 255 255)
    ∧ lineOf (.setCtrl 1) = some (.ctrl 1) ∧ lineOf .tick = some .tick := by decide

theorem test_witness_StepRunsTheDecodedInstruction :
    (({ State.reset with inputs := [.host (.memWrite 0 4 (wordOfBytes 0x03 0x01 0x01 0x01))] } : State).NoFault
      ∧ decode 4 (wordOfBytes 0x03 0x01 0x01 0x01) = .register 1 1 3)
    ∧ ({ State.reset with inputs := [.tick], ten := 1 } : State).NoFault
    ∧ ({ State.reset with inputs := [.tick], ten := 1 } : State).ten = 1 := by
  refine ⟨⟨rfl, by decide⟩, rfl, rfl⟩

/-- The three clauses: a TICK with TEN = 1, a TICK with TEN = 0, and the SET_CTRL that sets TEN. -/
theorem test_witness_TickFiresOnlyWhileEnabled :
    (({ State.reset with inputs := [.tick], ten := 1 } : State).NoFault
      ∧ ({ State.reset with inputs := [.tick], ten := 1 } : State).ten = 1)
    ∧ (({ State.reset with inputs := [.tick] } : State).NoFault ∧ ({ State.reset with inputs := [.tick] } : State).ten = 0)
    ∧ ∃ t, step { State.reset with inputs := [.host (.memWrite 0 4 0x04000001)] } = .next t ∧ State.reset.ten = 0
      ∧ t.ten = 1 :=
  ⟨⟨rfl, rfl⟩, ⟨rfl, rfl⟩, _, next_of (t := { State.reset with ten := 1, result := 0x00000400 }) (by decide), rfl, rfl⟩

/-- All four arms: the fault, the full registry, the alias and the append into the first and the last entry. -/
theorem test_witness_RegisterAppendsAChannel :
    (({ State.reset with ten := 1 } : State).Inv ∧ ({ State.reset with ten := 1 } : State).ten = 1)
    ∧ (fullRegistry.Inv ∧ fullRegistry.ten ≠ 1 ∧ fullRegistry.count.toNat = fullRegistry.cfg.capacity)
    ∧ (State.reset.Inv ∧ ((3 : Byte), (1 : PinIndex)) ∈ State.reset.cfg.hwPwmPins ∧ (3 : Byte).toNat < State.reset.cfg.numGroups)
    ∧ (State.reset.Inv ∧ State.reset.ten ≠ 1 ∧ State.reset.count.toNat ≠ State.reset.cfg.capacity
      ∧ ¬ (((3 : Byte), (2 : PinIndex)) ∈ State.reset.cfg.hwPwmPins ∨ ((0 : Byte), (2 : PinIndex)) ∈ State.reset.cfg.hwPwmPins))
    ∧ ((withChannels (List.replicate 7 (plain 1 3 0))).Inv
      ∧ (withChannels (List.replicate 7 (plain 1 3 0))).count.toNat = 7) :=
  ⟨⟨inv_of_check (by decide), rfl⟩, ⟨inv_of_check (by decide), by decide, by decide⟩,
    ⟨inv_of_check (by decide), by decide, by decide⟩, ⟨inv_of_check (by decide), by decide, by decide, by decide⟩,
    inv_of_check (by decide), by decide⟩

theorem test_witness_RegisterIntoFullRegistryIsANoOp :
    fullRegistry.ten = 0 ∧ fullRegistry.count.toNat = fullRegistry.cfg.capacity := by decide

theorem test_witness_FaultsAreRecordedAndFinal :
    ({ State.reset with ten := 1 } : State).ten = 1
    ∧ (State.reset.ten = 0 ∧ State.reset.count.toNat ≠ State.reset.cfg.capacity
      ∧ (((3 : Byte), (0 : PinIndex)) ∈ State.reset.cfg.hwPwmPins ∨ ((1 : Byte), (0 : PinIndex)) ∈ State.reset.cfg.hwPwmPins))
    ∧ (State.reset.ten = 0 ∧ (((1 : Byte), (1 : PinIndex)) ∈ State.reset.cfg.hwPwmPins
      ∨ ((3 : Byte), (1 : PinIndex)) ∈ State.reset.cfg.hwPwmPins))
    ∧ ({ State.reset with faults := [.pinAlias] } : State).faults ≠ [] := by decide

/-- A step that appends a fault, one that appends none, and a state with a fault. -/
theorem test_witness_FaultsOnlyGrow :
    (∃ t, step { State.reset with inputs := [.host (.memWrite 0 4 0x01030301)] } = .next t ∧ t.faults = [.pinAlias])
    ∧ (∃ t, step State.reset = .next t ∧ t.faults = [])
    ∧ ({ State.reset with faults := [.pinAlias] } : State).faults ≠ [] :=
  ⟨⟨_, next_of (t := { State.reset with faults := [.pinAlias] }) (by decide), rfl⟩,
    ⟨_, next_of (t := State.reset) (by decide), rfl⟩, by decide⟩

/-- Vector R-11: the first and the last entry. -/
theorem test_witness_RegisteredPinIsDrivenAtItsOldLevel :
    (({ State.reset with lvl := [0, 0x01, 0, 0] } : State).Inv ∧ State.reset.ten = 0
      ∧ State.reset.count.toNat < State.reset.cfg.capacity ∧ (1 : Byte).toNat < State.reset.cfg.numGroups
      ∧ ((1 : Byte), (0 : PinIndex)) ∉ State.reset.cfg.hwPwmPins)
    ∧ ((withChannels (List.replicate 7 (plain 1 3 0))).Inv ∧ (withChannels (List.replicate 7 (plain 1 3 0))).ten = 0
      ∧ (withChannels (List.replicate 7 (plain 1 3 0))).count.toNat = 7 ∧ (3 : Byte).toNat < State.reset.cfg.numGroups
      ∧ ((3 : Byte), (7 : PinIndex)) ∉ State.reset.cfg.hwPwmPins) :=
  ⟨⟨inv_of_check (by decide), by decide, by decide, by decide, by decide⟩,
    inv_of_check (by decide), by decide, by decide, by decide, by decide⟩

/-- An index at COUNT, the last one below it, an opening window, an open one and TEN = 0. -/
theorem test_witness_SetDutyOverwritesOneDuty :
    ((oneChannel 128 0).Inv ∧ (oneChannel 128 0).count.toNat ≤ (1 : Byte).toNat)
    ∧ (fullRegistry.Inv ∧ ¬ fullRegistry.count.toNat ≤ (7 : Byte).toNat ∧ fullRegistry.ten = 0)
    ∧ ((oneChannel 128 1).Inv ∧ ¬ (oneChannel 128 1).count.toNat ≤ (0 : Byte).toNat
      ∧ (oneChannel 128 1).ten = 1 ∧ ((oneChannel 128 1).channel 0).stale = false)
    ∧ (openWindow.Inv ∧ openWindow.ten = 1 ∧ (openWindow.channel 0).stale = true) :=
  ⟨⟨inv_of_check (by decide), by decide⟩, ⟨inv_of_check (by decide), by decide, by decide⟩,
    ⟨inv_of_check (by decide), by decide, by decide, by decide⟩, inv_of_check (by decide), by decide, by decide⟩

/-- Index 0 with an open window, and the higher of two channels on one bit with none. -/
theorem test_witness_OldDutyIsUsedAtMostOnce :
    (openWindow.Inv ∧ (0 : Byte).toNat < openWindow.count.toNat ∧ TopOnItsBit openWindow (0 : Byte).toNat
      ∧ (openWindow.channel 0).stale = true)
    ∧ ((sharedBit 255 0).Inv ∧ (1 : Byte).toNat < (sharedBit 255 0).count.toNat
      ∧ TopOnItsBit (sharedBit 255 0) (1 : Byte).toNat ∧ (sharedBit 255 0).ten = 1) :=
  ⟨⟨inv_of_check (by decide), by decide, top_of_check (by decide), by decide⟩,
    inv_of_check (by decide), by decide, top_of_check (by decide), by decide⟩

/-- The counter at its wrap, a valid and an unfilled entry, a bit a channel uses and one that none does. -/
theorem test_witness_TickDrivesEveryChannel :
    (tickStart 255 255 0xFE).Inv ∧ (tickStart 255 255 0xFE).tcnt.toNat = 255 ∧ 0 < (tickStart 255 255 0xFE).count.toNat
    ∧ (tickStart 255 255 0xFE).count.toNat ≤ 1 ∧ TopOnItsBit (tickStart 255 255 0xFE) 0
    ∧ (∀ i, i < (tickStart 255 255 0xFE).count.toNat →
        ¬ (((tickStart 255 255 0xFE).channel i).lgrp.toNat = 1 ∧ ((tickStart 255 255 0xFE).channel i).pin = 1))
    ∧ openWindow.Inv ∧ (openWindow.channel 0).stale = true ∧ TopOnItsBit openWindow 0 :=
  ⟨inv_of_check (by decide), by decide, by decide, by decide, top_of_check (by decide), by decide, inv_of_check (by decide),
    by decide, top_of_check (by decide)⟩

/-- The boundary duties 0 and 255. -/
theorem test_witness_LevelIsCounterBelowDuty :
    ((tickStart 0 255 0x01).Inv ∧ 0 < (tickStart 0 255 0x01).count.toNat
      ∧ ((tickStart 0 255 0x01).channel 0).stale = false ∧ TopOnItsBit (tickStart 0 255 0x01) 0
      ∧ ((tickStart 0 255 0x01).channel 0).duty = 0)
    ∧ ((tickStart 255 254 0x01).Inv ∧ 0 < (tickStart 255 254 0x01).count.toNat
      ∧ ((tickStart 255 254 0x01).channel 0).stale = false ∧ TopOnItsBit (tickStart 255 254 0x01) 0
      ∧ ((tickStart 255 254 0x01).channel 0).duty = 255) :=
  ⟨⟨inv_of_check (by decide), by decide, by decide, top_of_check (by decide), by decide⟩,
    inv_of_check (by decide), by decide, by decide, top_of_check (by decide), by decide⟩

/-- The third channel of program P1, and the higher of two on one bit. -/
theorem test_witness_DutyFractionIsExact :
    ((withChannels [plain 1 0 128, plain 1 1 200, plain 1 2 50]).Inv
      ∧ 2 < (withChannels [plain 1 0 128, plain 1 1 200, plain 1 2 50]).count.toNat
      ∧ ((withChannels [plain 1 0 128, plain 1 1 200, plain 1 2 50]).channel 2).stale = false
      ∧ TopOnItsBit (withChannels [plain 1 0 128, plain 1 1 200, plain 1 2 50]) 2)
    ∧ ((sharedBit 255 0).Inv ∧ 1 < (sharedBit 255 0).count.toNat ∧ ((sharedBit 255 0).channel 1).stale = false
      ∧ TopOnItsBit (sharedBit 255 0) 1) :=
  ⟨⟨inv_of_check (by decide), by decide, by decide, top_of_check (by decide)⟩,
    inv_of_check (by decide), by decide, by decide, top_of_check (by decide)⟩

/-- TICKs with a read of STATUS, a SET_DUTY to channel 0 and a write of a level byte among them. -/
def busyEvents (n m : Nat) : List Event :=
  List.replicate n .tick ++ .host (.memRead 8 4) :: .host (.memWrite 0 4 0x02000005) ::
    (List.replicate m .tick ++ [.host (.pinWrite .lvl 1 0xFF)])

/-- The higher of two channels on one bit, and 256 TICKs to come. -/
def busyRun : State := { sharedBit 255 128 with inputs := busyEvents 100 156 }

theorem mem_busyEvents {ev : Event} {n m : Nat} (h : ev ∈ busyEvents n m) :
    ev = .tick ∨ ev = .host (.memRead 8 4) ∨ ev = .host (.memWrite 0 4 0x02000005) ∨ ev = .host (.pinWrite .lvl 1 0xFF) := by
  simp only [busyEvents, List.mem_append, List.mem_cons, List.mem_replicate, List.not_mem_nil, or_false] at h
  tauto

/-- Running, on the vectors' configuration, with ticks enabled. -/
def Running (s : State) : Prop := s.NoFault ∧ s.ten = 1 ∧ s.cfg = Config.vectors

/-- Each of those events completes on a running block and leaves it running. -/
theorem busyEvent_completes {ev : Event} {n m : Nat} (h : ev ∈ busyEvents n m) {s : State} (hs : Running s) :
    ∃ t, eventStep ev s = .next t ∧ Running t ∧ t.inputs = s.inputs := by
  obtain ⟨hf, ht, hc⟩ := hs
  rcases mem_busyEvents h with rfl | rfl | rfl | rfl
  · exact ⟨_, if_pos ht, ⟨by simpa [State.NoFault] using hf, by simpa using ht, by simpa using hc⟩, by simp⟩
  · refine ⟨{ s with observed := s.observed ++ [.word s.status] }, ?_, ⟨hf, ht, hc⟩, rfl⟩
    show memRead 8 4 s = _
    unfold memRead
    rw [show busCheck s.cfg 8 4 = .ok 8 by rw [hc]; rfl]
    rfl
  · have hx : eventStep (.host (.memWrite 0 4 0x02000005)) s = execSetDuty 0 5 s := by
      have := hostStep_cmd s 0x02000005
      rw [hc] at this
      exact this
    rw [hx]
    rcases execSetDuty_cases 0 5 s with ⟨_, he⟩ | ⟨_, he⟩ <;> exact ⟨_, he, ⟨hf, ht, hc⟩, rfl⟩
  · refine ⟨s.setPinByte .lvl 1 0xFF, ?_, ⟨hf, ht, hc⟩, rfl⟩
    simp only [eventStep, hostStep, pinWrite, hc, show groupCheck Config.vectors 1 = .ok 1 from rfl]

theorem run_completes {evs : List Event} {n m : Nat} (h : ∀ ev ∈ evs, ev ∈ busyEvents n m) :
    ∀ {s : State}, Running s → s.inputs = evs → ∃ t, Host.Core.run core evs.length s = .next t := by
  induction evs with
  | nil => exact fun _ _ => ⟨_, rfl⟩
  | cons ev rest ih =>
    intro s hs hi
    obtain ⟨t, he, ht, hr⟩ := busyEvent_completes (h ev (List.mem_cons_self ..)) (s := { s with inputs := rest }) hs
    rw [List.length_cons, run_succ ((step_event hs.1 hi).trans he)]
    exact ih (fun e hm => h e (List.mem_cons_of_mem _ hm)) ht hr

theorem test_witness_DutyFractionIsExactInEveryRun :
    busyRun.Inv ∧ 1 < busyRun.count.toNat ∧ (busyRun.channel 1).stale = false ∧ TopOnItsBit busyRun 1
    ∧ (∀ ev ∈ busyRun.inputs.take busyRun.inputs.length, LeavesChannel busyRun 1 ev)
    ∧ (busyRun.inputs.take busyRun.inputs.length).count .tick = 256
    ∧ ∃ t, Host.Core.run core busyRun.inputs.length busyRun = .next t := by
  rw [List.take_length]
  refine ⟨inv_of_check (by decide), by decide, by decide, top_of_check (by decide), ?_, ?_,
    run_completes (n := 100) (m := 156) (fun _ h => h) ⟨rfl, rfl, rfl⟩ rfl⟩
  · intro ev hev w hw
    subst hw
    have hw : w = 0x02000005 := by
      rcases mem_busyEvents hev with h | h | h | h <;> cases h
      rfl
    have hd : decode busyRun.cfg.numGroups w = .setDuty 0 5 := by
      rw [hw]
      decide
    rw [hd]
    refine ⟨fun j v h => ?_, fun e l p h => by cases h⟩
    cases h
    decide
  · show (busyEvents 100 156).count .tick = 256
    simp [-List.reduceReplicate, busyEvents, List.count_append]

/-- The TICK to 0, the TICK to 255 and the TICK to the duty. -/
theorem test_witness_RisingEdgesFallOnTheWrap :
    ∀ s ∈ [tickStart 1 255 0x00, tickStart 255 254 0x01, tickStart 128 127 0x01],
      s.Inv ∧ 0 < s.count.toNat ∧ (s.channel 0).stale = false ∧ TopOnItsBit s 0
      ∧ (s.tcnt = 255 ∨ s.tcnt = 254 ∨ s.tcnt + 1 = (s.channel 0).duty) := by
  intro s hs
  have h : ∀ s ∈ [tickStart 1 255 0x00, tickStart 255 254 0x01, tickStart 128 127 0x01],
      checkInv s = true ∧ 0 < s.count.toNat ∧ (s.channel 0).stale = false
      ∧ (∀ j, j < s.count.toNat → 0 < j → ¬ ((s.channel j).lgrp = (s.channel 0).lgrp ∧ (s.channel j).pin = (s.channel 0).pin))
      ∧ (s.tcnt = 255 ∨ s.tcnt = 254 ∨ s.tcnt + 1 = (s.channel 0).duty) := by decide
  obtain ⟨h1, h2, h3, h4, h5⟩ := h s hs
  exact ⟨inv_of_check h1, h2, h3, top_of_check h4, h5⟩

/-- A driven pin and one that is not (vector T-14). -/
theorem test_witness_DrivenPinShowsTheWaveform :
    ((oneChannel 200 1).Inv ∧ 0 < (oneChannel 200 1).count.toNat ∧ ((oneChannel 200 1).channel 0).stale = false
      ∧ TopOnItsBit (oneChannel 200 1) 0 ∧ bitOf ((oneChannel 200 1).pinByte .en 1) 3 = true)
    ∧ ((tickStart 200 0 0x00).Inv ∧ 0 < (tickStart 200 0 0x00).count.toNat
      ∧ ((tickStart 200 0 0x00).channel 0).stale = false ∧ TopOnItsBit (tickStart 200 0 0x00) 0
      ∧ bitOf ((tickStart 200 0 0x00).pinByte .en 1) 0 = false) :=
  ⟨⟨inv_of_check (by decide), by decide, by decide, top_of_check (by decide), by decide⟩,
    inv_of_check (by decide), by decide, by decide, top_of_check (by decide), by decide⟩

/-- Vectors T-8 and T-9. -/
theorem test_witness_HigherIndexWinsAndOthersDoNotInteract :
    ((sharedBit 0 255).Inv ∧ 0 < 1 ∧ 1 < (sharedBit 0 255).count.toNat ∧ TopOnItsBit (sharedBit 0 255) 1
      ∧ ((sharedBit 0 255).channel 0).lgrp = ((sharedBit 0 255).channel 1).lgrp
      ∧ ((sharedBit 0 255).channel 0).pin = ((sharedBit 0 255).channel 1).pin)
    ∧ ((sharedBit 255 0).Inv ∧ TopOnItsBit (sharedBit 255 0) 1)
    ∧ ¬ ((1 : Nat) = ((sharedBit 0 255).channel 1).lgrp.toNat ∧ (1 : PinIndex) = ((sharedBit 0 255).channel 1).pin) :=
  ⟨⟨inv_of_check (by decide), by decide, by decide, top_of_check (by decide), by decide, by decide⟩,
    ⟨inv_of_check (by decide), top_of_check (by decide)⟩, by decide⟩

theorem test_witness_TickWithNoChannelOnlyCounts :
    State.reset.count = 0 ∧ (tickStart 128 255 0x00).ten = 1 ∧ (tickStart 128 255 0x00).count ≠ 0 := by decide

theorem test_witness_TickIsAFunctionOutsideTheWindow :
    ∀ i, i < fullRegistry.count.toNat → (fullRegistry.channel i).stale = false := by decide

theorem test_witness_AnyNumberOfTicksRuns : openWindow.NoFault ∧ openWindow.ten = 1 := ⟨rfl, rfl⟩

/-- A host that writes a duty and an EN byte and reads STATUS, and the three steps that run. -/
theorem test_witness_LevelsFreezeWhileTicksAreOff :
    ∃ s : State, s.inputs = [.host (.memWrite 0 4 0x020000FF), .host (.pinWrite .en 1 0xFF), .host (.memRead 8 4)]
      ∧ s.ten = 0 ∧ (∀ ev ∈ s.inputs, (∀ g v, ev ≠ .host (.pinWrite .lvl g v))
        ∧ ∀ w, ev = .host (.memWrite s.cfg.base 4 w) → decode s.cfg.numGroups w ≠ .setCtrl 1)
      ∧ ∃ t, Host.Core.run core 3 s = .next t := by
  refine ⟨{ oneChannel 128 0 with
    inputs := [.host (.memWrite 0 4 0x020000FF), .host (.pinWrite .en 1 0xFF), .host (.memRead 8 4)] }, rfl, rfl, ?_, _, rfl⟩
  intro ev hev
  simp only [List.mem_cons, List.not_mem_nil, or_false] at hev
  rcases hev with rfl | rfl | rfl
  · refine ⟨fun _ _ h => by simp at h, fun w h => ?_⟩
    cases h
    decide
  · exact ⟨fun _ _ h => by simp at h, fun _ h => by simp at h⟩
  · exact ⟨fun _ _ h => by simp at h, fun _ h => by simp at h⟩

/-- Each kind of R102, at the edges of its fields. -/
theorem test_witness_IllegalWordsChangeOnlyResult :
    (0x00FFFFFF#32).toNat / 2 ^ 24 = 0x00 ∧ (0x03000000#32).toNat / 2 ^ 24 = 0x03
    ∧ 0x05 ≤ (0x05000000#32).toNat / 2 ^ 24 ∧ 0x05 ≤ (0xFFFFFFFF#32).toNat / 2 ^ 24
    ∧ ((0x01010108#32).toNat / 2 ^ 24 = 0x01 ∧ (0x01010108#32).toNat / 2 ^ 3 % 2 ^ 5 ≠ 0)
    ∧ ((0x01040100#32).toNat / 2 ^ 24 = 0x01 ∧ State.reset.cfg.numGroups ≤ (0x01040100#32).toNat / 2 ^ 16 % 2 ^ 8)
    ∧ ((0x01000400#32).toNat / 2 ^ 24 = 0x01 ∧ State.reset.cfg.numGroups ≤ (0x01000400#32).toNat / 2 ^ 8 % 2 ^ 8)
    ∧ ((0x02008000#32).toNat / 2 ^ 24 = 0x02 ∧ (0x02008000#32).toNat / 2 ^ 8 % 2 ^ 8 ≠ 0)
    ∧ ((0x04800000#32).toNat / 2 ^ 24 = 0x04 ∧ (0x04800000#32).toNat / 2 % 2 ^ 23 ≠ 0) := by decide

/-- A next state of each command: REGISTER with room and full, SET_DUTY in and out of range, SET_CTRL, ILLEGAL. -/
theorem test_witness_EveryOutcomeHasItsResultWord :
    (∃ t, exec (.register 1 1 3) State.reset = .next t ∧ t.faults = State.reset.faults
      ∧ State.reset.count.toNat ≠ State.reset.cfg.capacity)
    ∧ (∃ t, exec (.register 0 0 0) fullRegistry = .next t ∧ t.faults = fullRegistry.faults
      ∧ fullRegistry.count.toNat = fullRegistry.cfg.capacity)
    ∧ (∃ t, exec (.setDuty 7 99) fullRegistry = .next t ∧ ¬ fullRegistry.count.toNat ≤ (7 : Byte).toNat)
    ∧ (∃ t, exec (.setDuty 8 99) fullRegistry = .next t ∧ fullRegistry.count.toNat ≤ (8 : Byte).toNat)
    ∧ (∃ t, exec (.setCtrl 1) State.reset = .next t) ∧ (∃ t, exec (.illegal 0x00000000) State.reset = .next t) :=
  ⟨⟨_, rfl, rfl, by decide⟩, ⟨_, rfl, rfl, by decide⟩, ⟨_, rfl, by decide⟩, ⟨_, rfl, by decide⟩, ⟨_, rfl⟩, _, rfl⟩

theorem test_witness_NoInstructionReadsResult :
    (∃ t, exec .tick openWindow = .next t) ∧ (∃ t, exec (.register 1 1 3) State.reset = .next t)
    ∧ (∃ t, exec (.setDuty 0 1) openWindow = .next t) ∧ (∃ t, exec (.setCtrl 0) openWindow = .next t)
    ∧ ∃ t, exec (.illegal 0x03000000) openWindow = .next t :=
  ⟨⟨_, rfl⟩, ⟨_, rfl⟩, ⟨_, rfl⟩, ⟨_, rfl⟩, _, rfl⟩

/-- A command, a TICK, a pin write and a read, each from a state that meets the invariant. -/
theorem test_witness_StepKeepsTheInvariant :
    ∀ ev ∈ [Event.host (.memWrite 0 4 0x0200000A), .tick, .host (.pinWrite .lvl 3 0xFF), .host (.memRead 0x3C 4)],
      ({ oneChannel 128 1 with inputs := [ev] } : State).Inv
      ∧ ∃ t, step { oneChannel 128 1 with inputs := [ev] } = .next t := by
  intro ev hev
  have h : ∀ ev ∈ [Event.host (.memWrite 0 4 0x0200000A), .tick, .host (.pinWrite .lvl 3 0xFF), .host (.memRead 0x3C 4)],
      checkInv { oneChannel 128 1 with inputs := [ev] } = true
      ∧ (nextOf (step { oneChannel 128 1 with inputs := [ev] })).isSome = true := by decide
  obtain ⟨h1, h2⟩ := h ev hev
  obtain ⟨t, ht⟩ := Option.isSome_iff_exists.mp h2
  exact ⟨inv_of_check h1, t, next_of ht⟩

/-- Reset under the vectors' configuration, and a state one command later in which ticks are enabled. -/
theorem test_witness_ReachableStatesMeetTheInvariant :
    Config.vectors.Ok ∧ Reachable Config.vectors State.reset
    ∧ ∃ s, Reachable Config.vectors s ∧ s.NoFault ∧ s.ten = 1 :=
  ⟨vectors_ok, .reset [] 0, { State.reset with ten := 1, result := 0x00000400 },
    .step (.reset [.host (.memWrite 0 4 0x04000001)] 0) (next_of (by decide)), rfl, rfl⟩

/-- A step with a filled entry, and the two kinds of failed registration: FULL and a fault. -/
theorem test_witness_FilledEntriesKeepTheirPin :
    ((sharedBit 0 255).Inv ∧ (∃ t, step { sharedBit 0 255 with inputs := [.tick] } = .next t) ∧ 1 < (sharedBit 0 255).count.toNat)
    ∧ (∃ t, exec (.register 0 0 0) fullRegistry = .next t ∧ t.count = fullRegistry.count)
    ∧ (∃ t, exec (.register 3 3 0) State.reset = .next t ∧ t.count = State.reset.count) :=
  ⟨⟨inv_of_check (by decide), ⟨_, rfl⟩, by decide⟩, ⟨_, rfl, rfl⟩, _, rfl, rfl⟩

/-- For every element a step that changes it: TICK, host pin writes, REGISTER with and without a fault, SET_DUTY,
SET_CTRL. -/
theorem test_witness_EachElementHasItsWriters :
    (∃ t, step { tickStart 255 0 0x00 with inputs := [.tick] } = .next t ∧ t.tcnt ≠ 0 ∧ t.lvl ≠ [0, 0x00, 0, 0])
    ∧ (∃ t, step { openWindow with inputs := [.tick] } = .next t ∧ (t.channel 0).stale ≠ (openWindow.channel 0).stale)
    ∧ (∃ t, step { State.reset with inputs := [.host (.pinWrite .lvl 0 1)] } = .next t ∧ t.lvl ≠ State.reset.lvl)
    ∧ (∃ t, step { State.reset with inputs := [.host (.pinWrite .en 0 1)] } = .next t ∧ t.en ≠ State.reset.en)
    ∧ (∃ t, step { State.reset with inputs := [.host (.memWrite 0 4 0x01010103)] } = .next t ∧ t.en ≠ State.reset.en
      ∧ t.count ≠ State.reset.count ∧ t.channels ≠ State.reset.channels ∧ t.result ≠ State.reset.result)
    ∧ (∃ t, step { State.reset with inputs := [.host (.memWrite 0 4 0x01030301)] } = .next t ∧ t.faults ≠ State.reset.faults)
    ∧ (∃ t, step { oneChannel 0 0 with inputs := [.host (.memWrite 0 4 0x02000080)] } = .next t
      ∧ t.channels ≠ (oneChannel 0 0).channels)
    ∧ (∃ t, step { State.reset with inputs := [.host (.memWrite 0 4 0x04000001)] } = .next t ∧ t.ten ≠ State.reset.ten) :=
  ⟨⟨_, rfl, by decide, by decide⟩, ⟨_, rfl, by decide⟩, ⟨_, rfl, by decide⟩, ⟨_, rfl, by decide⟩,
    ⟨_, rfl, by decide, by decide, by decide, by decide⟩, ⟨_, rfl, by decide⟩, ⟨_, rfl, by decide⟩, _, rfl, by decide⟩

theorem test_witness_RegisterFrame :
    (∃ t, exec (.register 0 2 5) (oneChannel 0 0) = .next t) ∧ (0 : Nat) ≠ (oneChannel 0 0).count.toNat
    ∧ ¬ ((2 : Nat) = (0 : Byte).toNat ∧ (5 : PinIndex) = 5) := ⟨⟨_, rfl⟩, by decide, by decide⟩

theorem test_witness_SetDutyFrame : (∃ t, exec (.setDuty 0 10) (oneChannel 128 1) = .next t) ∧ (1 : Nat) ≠ (0 : Byte).toNat :=
  ⟨⟨_, rfl⟩, by decide⟩

theorem test_witness_TickFrame :
    (∃ t, exec .tick openWindow = .next t) ∧ openWindow.count.toNat ≤ 1
    ∧ ∀ i, i < openWindow.count.toNat → ¬ ((openWindow.channel i).lgrp.toNat = 1 ∧ (openWindow.channel i).pin = 7) :=
  ⟨⟨_, rfl⟩, by decide, by decide⟩

/-- Two states that differ in the first unfilled entry, with a step that completes, one that faults and one that is
refused. -/
theorem test_witness_UnfilledEntriesAreUnobservable :
    ∀ fe ∈ [(([] : List Fault), Event.host (.memWrite 0 4 0x01010101)), ([.pinAlias], .tick), ([], .host (.memRead 6 4))],
      SameFilled { withChannels [plain 1 0 9] with faults := fe.1, inputs := [fe.2] }
        { withChannels [plain 1 0 9] with
          faults := fe.1, inputs := [fe.2],
          channels := plain 1 0 9 :: ⟨3, 2, 7, 200, false, 0⟩ :: List.replicate 6 Channel.blank } := by
  intro fe _
  refine ⟨rfl, rfl, fun i hi => ?_⟩
  have h0 : i = 0 := by
    have : (withChannels [plain 1 0 9]).count.toNat = 1 := by decide
    exact Nat.lt_one_iff.mp (this ▸ hi)
  subst h0
  rfl

theorem test_witness_UnfilledEntriesAreUnobservable_answers :
    (nextOf (step { withChannels [plain 1 0 9] with inputs := [.host (.memWrite 0 4 0x01010101)] })).isSome = true
    ∧ faultOf (step { withChannels [plain 1 0 9] with faults := [.pinAlias], inputs := [.tick] }) = some .pinAlias
    ∧ refusalOf (step { withChannels [plain 1 0 9] with inputs := [.host (.memRead 6 4)] }) = some .busMisaligned := by
  decide

theorem test_witness_StatusShowsItsFields :
    fullRegistry.Inv ∧ fullRegistry.cfg.capacity = 8 ∧ fullRegistry.count.toNat = 8 :=
  ⟨inv_of_check (by decide), rfl, by decide⟩

/-- The last slot of the window, a valid entry and the first one that is not. -/
theorem test_witness_ChanShowsItsEntry :
    11 < 12 ∧ 0 < (oneChannel 128 0).count.toNat ∧ ¬ 1 < (oneChannel 128 0).count.toNat := by decide

theorem test_witness_WindowReadsReturnTheirWord : 0 < 12 ∧ 11 < 12 := by decide

theorem test_witness_ReadsHaveNoSideEffects :
    (∃ t, hostStep (.memRead 0x04 4) fullRegistry = .next t) ∧ ∃ t, hostStep (.pinRead .en 3) fullRegistry = .next t :=
  ⟨⟨_, rfl⟩, _, rfl⟩

theorem test_witness_OnlyCmdWritesHaveAnEffect : 1 ≤ 1 ∧ 1 < 16 ∧ 1 ≤ 15 ∧ 15 < 16 := by decide

/-- The first and the last byte of the window, of each kind of access. -/
theorem test_witness_WindowAdmitsAlignedWordsOnly :
    (State.reset.cfg.base ≤ 0x3F ∧ 0x3F < State.reset.cfg.base + 0x40 ∧ (1 : Nat) ≠ 4)
    ∧ (State.reset.cfg.base ≤ 0x3D ∧ 0x3D < State.reset.cfg.base + 0x40 ∧ (0x3D - State.reset.cfg.base) % 4 ≠ 0)
    ∧ (State.reset.cfg.base ≤ 0x3C ∧ 0x3C < State.reset.cfg.base + 0x40 ∧ (0x3C - State.reset.cfg.base) % 4 = 0)
    ∧ (State.reset.cfg.base ≤ 0x00 ∧ (0x00 - State.reset.cfg.base) % 4 = 0) := by decide

/-- The last group and the first that does not exist. -/
theorem test_witness_PinAccessesReadAndWriteWholeBytes :
    State.reset.Inv ∧ 3 < State.reset.cfg.numGroups ∧ State.reset.cfg.numGroups ≤ 4 ∧ (PinReg.en ≠ .lvl ∨ (0 : Nat) ≠ 0) :=
  ⟨inv_of_check (by decide), by decide, by decide, by decide⟩

theorem test_witness_HostLevelWriteLastsUntilTheNextTick :
    (tickStart 200 0 0x00).Inv ∧ 0 < (tickStart 200 0 0x00).count.toNat
    ∧ ((tickStart 200 0 0x00).channel 0).stale = false ∧ TopOnItsBit (tickStart 200 0 0x00) 0
    ∧ ∀ j, j < (tickStart 200 0 0x00).count.toNat →
        ¬ (((tickStart 200 0 0x00).channel j).lgrp = ((tickStart 200 0 0x00).channel 0).lgrp
          ∧ ((tickStart 200 0 0x00).channel j).pin = 7) :=
  ⟨inv_of_check (by decide), by decide, by decide, top_of_check (by decide), by decide⟩

/-- Program P4 before its line 5: TCNT 255, duty 1. -/
theorem test_witness_ReadModifyWriteUndoesTheTickBetween :
    (tickStart 1 255 0x00).Inv ∧ (tickStart 1 255 0x00).NoFault ∧ (tickStart 1 255 0x00).ten = 1
    ∧ 1 < (tickStart 1 255 0x00).cfg.numGroups :=
  ⟨inv_of_check (by decide), rfl, by decide, by decide⟩

/-- A refused write, an ILLEGAL word, and for the two commands each outcome. -/
theorem test_witness_OutcomesFollowTheirPriority :
    (State.reset.cfg.base ≤ 0x01 ∧ 0x01 < State.reset.cfg.base + 0x40 ∧ ((4 : Nat) ≠ 4 ∨ (0x01 - State.reset.cfg.base) % 4 ≠ 0))
    ∧ isIllegalWord State.reset.cfg.numGroups 0x01050000 = true
    ∧ (decode fullRegistry.cfg.numGroups 0x01030300 = .register 3 3 0 ∧ fullRegistry.ten ≠ 1
      ∧ fullRegistry.count.toNat = fullRegistry.cfg.capacity)
    ∧ (decode fullRegistry.cfg.numGroups 0x01000000 = .register 0 0 0 ∧ ({ fullRegistry with ten := 1 } : State).ten = 1)
    ∧ (((3 : Byte), (0 : PinIndex)) ∈ State.reset.cfg.hwPwmPins ∧ ((0 : Byte), (0 : PinIndex)) ∉ State.reset.cfg.hwPwmPins
      ∧ State.reset.ten ≠ 1 ∧ State.reset.count.toNat ≠ State.reset.cfg.capacity)
    ∧ (decode fullRegistry.cfg.numGroups 0x02080063 = .setDuty 8 99 ∧ fullRegistry.count.toNat ≤ (8 : Byte).toNat)
    ∧ (decode fullRegistry.cfg.numGroups 0x02070063 = .setDuty 7 99 ∧ ¬ fullRegistry.count.toNat ≤ (7 : Byte).toNat) := by
  decide

/-- Every kind of operation R123 names: REGISTER, another command, the last word of the window, the last pin group. -/
theorem test_witness_KeepingTheHostRulesCompletes :
    HostKeepsRules State.reset (.memWrite 0 4 0x01010103) ∧ HostKeepsRules fullRegistry (.memWrite 0 4 0x02070063)
    ∧ HostKeepsRules State.reset (.memWrite 0x3C 4 0) ∧ HostKeepsRules State.reset (.memRead 0x3C 4)
    ∧ HostKeepsRules State.reset (.pinRead .en 3) ∧ HostKeepsRules State.reset (.pinWrite .lvl 3 0xFF) := by
  have h1 : decode State.reset.cfg.numGroups 0x01010103 = .register 1 1 3 := by decide
  have h2 : decode fullRegistry.cfg.numGroups 0x02070063 = .setDuty 7 99 := by decide
  refine ⟨⟨rfl, by decide, by decide, rfl, fun _ e l p h => ?_⟩, ⟨rfl, by decide, by decide, rfl, fun _ e l p h => ?_⟩,
    ⟨rfl, by decide, by decide, rfl, fun h => absurd h (by decide)⟩, ⟨rfl, by decide, by decide, rfl⟩,
    show (3 : Nat) < 4 by decide, show (3 : Nat) < 4 by decide⟩
  · rw [h1] at h
    cases h
    decide
  · rw [h2] at h
    cases h

/-- A fair run with a host that has one operation, the read of RESULT, taken first; then a TICK every step. -/
theorem test_witness_FairTicksReachEveryCount :
    ∃ (st : Nat → State) (ev : Nat → Event) (op : Nat → Option HostOp) (taken : Nat → Nat),
      FairRun st ev op taken ∧ ∀ j, 0 ≤ j → (st j).ten = 1 := by
  let s0 : State := { State.reset with ten := 1 }
  refine ⟨fun k => if k = 0 then s0 else { s0 with tcnt := BitVec.ofNat 8 (k - 1), observed := [.word 0] },
    fun k => if k = 0 then .host (.memRead 4 4) else .tick, fun k => if k = 0 then some (.memRead 4 4) else none,
    fun k => if k = 0 then 0 else 1, ⟨?_, rfl, ?_, ?_, ?_⟩, ?_⟩
  · intro k
    cases k with
    | zero => exact ⟨rfl, next_of (by decide)⟩
    | succ k =>
      refine ⟨rfl, ?_⟩
      show Host.Outcome.next _ = _
      simp [tickEffect, driveChannels, advanceCounter, s0, State.reset, State.resetWith, BitVec.ofNat_add]
  · intro k
    cases k with
    | zero => exact .inr ⟨_, rfl, rfl, rfl⟩
    | succ k => exact .inl ⟨rfl, rfl⟩
  · intro _ _ j
    exact ⟨j + 1, by omega, rfl⟩
  · intro k o h
    cases k with
    | zero => exact .inl ⟨1, by omega, by decide⟩
    | succ k => cases h
  · intro j _
    cases j <;> rfl

end Sys2Proof.Tests
end

section
/-! The family `00_scope`: reset meets the invariant, and what a step with a command or a tick next runs. -/

namespace Sys2Proof.Machine

/-! ### Reset -/

/-- One PIN_INIT byte for every group (10_state R36, R37) gives the pin-group space its form. -/
theorem resetWith_pins_wf {c : Config} (h : c.Ok) : Memory.wf (State.resetWith c) = true :=
  (Memory.wf_iff _).mpr ⟨h.en_length, h.lvl_length⟩

/-- Settles O3: COUNT is 0, so no entry is valid yet; the lengths are the configuration's, and RESULT holds R32's
reset value. -/
theorem resetMeetsTheInvariant : Obligations.ResetMeetsTheInvariant := by
  intro c h
  exact {
    cfg_ok := h
    count_le := Nat.zero_le _
    registry_length := List.length_replicate
    pins_wf := resetWith_pins_wf h
    entries_legal := fun _ hi => absurd hi (Nat.not_lt_zero _)
    result_legal := .inl rfl }

/-! ### A step runs the decoded instruction -/

/-- While TEN = 1 the tick source's event runs TICK (42_control R101). -/
theorem eventStep_tick_of_enabled {s : State} (h : s.ten = 1) : eventStep .tick s = exec .tick s := if_pos h

/-- Settles O10: the step takes the event (`step_event`), and taking it leaves the configuration and TEN, which
`hostStep_cmd` and `eventStep_tick_of_enabled` read. -/
theorem stepRunsTheDecodedInstruction : Obligations.StepRunsTheDecodedInstruction := by
  intro s rest hf
  constructor
  · intro b0 b1 b2 b3 hi
    rw [step_event hf hi]
    exact hostStep_cmd { s with inputs := rest } (wordOfBytes b0 b1 b2 b3)
  · intro hi hten
    rw [step_event hf hi]
    exact eventStep_tick_of_enabled hten

end Sys2Proof.Machine
end

section
/-! The family `10_state`: what an instruction, an event and a step can do, said as relations with one constructor for
each outcome, and that every outcome keeps the invariant. -/

namespace Sys2Proof.Machine

/-! ### What an instruction does -/

/-- `ExecEffect s i t`: instruction `i` takes `s` to `t`; one constructor for each outcome, under the condition in which
it is the one (40_registry R81, R84, 41_scheduler R89, 42_control R100, R102, 60_exceptions R109). -/
inductive ExecEffect (s : State) : Instr → State → Prop
  | ticking (e l : Byte) (p : PinIndex) (hten : s.ten = 1) :
      ExecEffect s (.register e l p) { s with faults := s.faults ++ [.registerWhileTicking] }
  | full (e l : Byte) (p : PinIndex) (hten : s.ten ≠ 1) (hfull : s.count.toNat = s.cfg.capacity) :
      ExecEffect s (.register e l p) { s with result := resultFull }
  | hwPin (e l : Byte) (p : PinIndex) (hten : s.ten ≠ 1) (hroom : s.count.toNat ≠ s.cfg.capacity)
      (hhw : aliasesHwPin s.cfg e l p = true) :
      ExecEffect s (.register e l p) { s with faults := s.faults ++ [.pinAlias] }
  | appended (e l : Byte) (p : PinIndex) (hten : s.ten ≠ 1) (hroom : s.count.toNat ≠ s.cfg.capacity)
      (hhw : aliasesHwPin s.cfg e l p = false) :
      ExecEffect s (.register e l p) { appendChannel e l p s with result := resultOk (s.count.zeroExtend 8) }
  | noChannel (i v : Byte) (hi : s.count.toNat ≤ i.toNat) :
      ExecEffect s (.setDuty i v) { s with result := resultInvalidIndex }
  | dutyChanged (i v : Byte) (hi : i.toNat < s.count.toNat) :
      ExecEffect s (.setDuty i v)
        { s.setChannel i.toNat (changeDuty s.ten v (s.channel i.toNat)) with result := resultOk i }
  | tick : ExecEffect s .tick (tickEffect s)
  | ctrl (b : BitVec 1) : ExecEffect s (.setCtrl b) { s with ten := b, result := resultOk 0 }
  | illegal (w : Word) : ExecEffect s (.illegal w) { s with result := resultIllegal }

/-- The answer of `exec` is the next state of the outcome whose condition holds. -/
theorem ExecEffect.exec_eq {s t : State} {i : Instr} (h : ExecEffect s i t) : exec i s = .next t := by
  cases h with
  | ticking e l p hten => rw [exec, execRegister, if_pos hten, raise]
  | full e l p hten hfull => rw [exec, execRegister, if_neg hten, if_pos hfull, complete]
  | hwPin e l p hten hroom hhw => rw [exec, execRegister, if_neg hten, if_neg hroom, if_pos hhw, raise]
  | appended e l p hten hroom hhw =>
    rw [exec, execRegister, if_neg hten, if_neg hroom, if_neg (ne_true_of_eq_false hhw), complete]
  | noChannel i v hi => simp [exec, execSetDuty, namesChannel, State.isValid, not_lt.mpr hi, complete]
  | dutyChanged i v hi => simp [exec, execSetDuty, namesChannel, State.isValid, hi, complete]
  | tick => rfl
  | ctrl b => rfl
  | illegal w => rfl

/-- In every state one of the outcomes is the one. -/
theorem exists_execEffect (s : State) (i : Instr) : ∃ t, ExecEffect s i t := by
  cases i with
  | register e l p =>
    rcases execRegister_cases e l p s with ⟨hten, -⟩ | ⟨hten, hfull, -⟩ | ⟨hten, hroom, hhw, -⟩ | ⟨hten, hroom, hhw, -⟩
    · exact ⟨_, .ticking e l p hten⟩
    · exact ⟨_, .full e l p hten hfull⟩
    · exact ⟨_, .hwPin e l p hten hroom hhw⟩
    · exact ⟨_, .appended e l p hten hroom hhw⟩
  | setDuty i v =>
    rcases execSetDuty_cases i v s with ⟨hi, -⟩ | ⟨hi, -⟩
    · exact ⟨_, .noChannel i v hi⟩
    · exact ⟨_, .dutyChanged i v hi⟩
  | tick => exact ⟨_, .tick⟩
  | setCtrl b => exact ⟨_, .ctrl b⟩
  | illegal w => exact ⟨_, .illegal w⟩

/-- `ExecEffect` is `exec`, seen outcome by outcome. -/
theorem exec_eq_next_iff {s t : State} {i : Instr} : exec i s = .next t ↔ ExecEffect s i t := by
  refine ⟨fun h => ?_, ExecEffect.exec_eq⟩
  obtain ⟨u, hu⟩ := exists_execEffect s i
  have hut : u = t := Host.Outcome.next.inj (hu.exec_eq.symm.trans h)
  exact hut ▸ hu

/-! ### What an event and a step do -/

/-- `EventEffect s ev t`: the event `ev`, answered with a next state, takes `s` to `t` (20_memory R51 to R57, 42_control
R101). -/
inductive EventEffect (s : State) : Event → State → Prop
  | tick (hten : s.ten = 1) : EventEffect s .tick (tickEffect s)
  | read (op : HostOp) (hop : (∃ a n, op = .memRead a n) ∨ ∃ r g, op = .pinRead r g) (o : Observation) :
      EventEffect s (.host op) { s with observed := s.observed ++ [o] }
  | ignored (a n : Nat) (v : Word) (ha : a ≠ s.cfg.base) : EventEffect s (.host (.memWrite a n v)) s
  | command (w : Word) {t : State} (he : ExecEffect s (decode s.cfg.numGroups w) t) :
      EventEffect s (.host (.memWrite s.cfg.base 4 w)) t
  | pinWrite (r : PinReg) (g : Nat) (v : Byte) (hg : g < s.cfg.numGroups) :
      EventEffect s (.host (.pinWrite r g v)) (s.setPinByte r g v)

theorem eventStep_effect {s t : State} {ev : Event} (h : eventStep ev s = .next t) : EventEffect s ev t := by
  cases ev with
  | tick =>
    obtain ⟨hten, rfl⟩ := tickEvent_cases h
    exact .tick hten
  | host op =>
    rcases hostStep_cases h with ⟨hop, o, rfl⟩ | ⟨⟨a, n, v, rfl, ha⟩, rfl⟩ | ⟨w, rfl, he⟩ | ⟨r, g, v, rfl, hg, rfl⟩
    · exact .read op hop o
    · exact .ignored a n v ha
    · exact .command w (exec_eq_next_iff.mp he)
    · exact .pinWrite r g v hg

/-- A step with a next state: FAULTS was empty, and no event was left and nothing happened, or the next event was taken
out and had its effect (00_scope R12, 60_exceptions R107). -/
theorem step_effect {s t : State} (h : step s = .next t) :
    s.faults = [] ∧ ((s.inputs = [] ∧ t = s)
      ∨ ∃ ev rest, s.inputs = ev :: rest ∧ EventEffect { s with inputs := rest } ev t) := by
  obtain ⟨hf, hidle | ⟨ev, rest, hi, he⟩⟩ := step_cases h
  · exact ⟨hf, .inl hidle⟩
  · exact ⟨hf, .inr ⟨ev, rest, hi, eventStep_effect he⟩⟩

/-! ### The command of a word -/

/-- A word written to CMD decodes to a well-formed instruction (30_encoding R73, R75, R102). -/
theorem decode_wf (n : Nat) (w : Word) : (decode n w).wf n = true := by
  by_cases hill : decode n w = .illegal w
  · rw [hill]
    exact (isIllegalWord_iff n w).mpr hill
  · unfold decode at hill ⊢
    split
    · next hreg => simp [Instr.wf, hreg]
    · next hreg =>
      rw [if_neg hreg] at hill
      split
      · rfl
      · next hduty =>
        rw [if_neg hduty] at hill
        split
        · rfl
        · next hctrl => exact absurd (if_neg hctrl) hill

/-- No word written to CMD is TICK (30_encoding R70). -/
theorem decode_ne_tick (n : Nat) (w : Word) : decode n w ≠ .tick := by
  unfold decode
  split
  · simp
  · split
    · simp
    · split
      · simp
      · simp

/-! ### The handles and the pin of an entry -/

/-- Entry `d` names the groups and the pin that `c` names (10_state R25 to R27). -/
def SamePins (c d : Channel) : Prop := d.egrp = c.egrp ∧ d.lgrp = c.lgrp ∧ d.pin = c.pin

theorem Channel.Legal.of_samePins {cfg : Config} {c d : Channel} (h : c.Legal cfg) (hcd : SamePins c d) :
    d.Legal cfg := by
  obtain ⟨he, hl, hp⟩ := hcd
  constructor
  · exact he ▸ h.egrp_lt
  · exact hl ▸ h.lgrp_lt
  · rw [he, hp]
    exact h.enable_not_hw
  · rw [hl, hp]
    exact h.level_not_hw

theorem newChannel_legal {cfg : Config} {e l : Byte} {p : PinIndex} (hwf : (Instr.register e l p).wf cfg.numGroups = true)
    (hhw : aliasesHwPin cfg e l p = false) : (newChannel e l p).Legal cfg := by
  rw [Instr.wf, Bool.and_eq_true, decide_eq_true_eq, decide_eq_true_eq] at hwf
  rw [← Bool.not_eq_true, aliasesHwPin_iff, not_or] at hhw
  exact ⟨hwf.1, hwf.2, hhw.1, hhw.2⟩

/-- SET_DUTY keeps what every entry names. -/
theorem samePins_setChannel_changeDuty (s : State) (i j : Nat) (b : BitVec 1) (v : Byte) :
    SamePins (s.channel j) ((s.setChannel i (changeDuty b v (s.channel i))).channel j) := by
  by_cases hj : j = i
  · subst hj
    by_cases hlen : j < s.channels.length
    · rw [channel_setChannel_same _ hlen]
      exact ⟨changeDuty_egrp .., changeDuty_lgrp .., changeDuty_pin ..⟩
    · rw [setChannel_beyond _ (not_lt.mp hlen)]
      exact ⟨rfl, rfl, rfl⟩
  · rw [channel_setChannel_other _ _ hj]
    exact ⟨rfl, rfl, rfl⟩

/-- An instruction leaves a valid entry valid, with its handles and its pin (10_state R43). -/
theorem ExecEffect.keeps_entry {s t : State} {i : Instr} (h : s.Inv) (he : ExecEffect s i t) {j : Nat}
    (hj : j < s.count.toNat) : j < t.count.toNat ∧ SamePins (s.channel j) (t.channel j) := by
  cases he with
  | ticking | full | hwPin | noChannel | ctrl | illegal => exact ⟨hj, rfl, rfl, rfl⟩
  | appended e l p =>
    have hcount : (s.count + 1).toNat = s.count.toNat + 1 := count_succ_toNat h
    refine ⟨?_, ?_⟩
    · show j < (s.count + 1).toNat
      omega
    · show SamePins (s.channel j) ((appendChannel e l p s).channel j)
      rw [appendChannel_channel_other e l p s hj.ne]
      exact ⟨rfl, rfl, rfl⟩
  | dutyChanged i v => exact ⟨hj, samePins_setChannel_changeDuty s i.toNat j s.ten v⟩
  | tick => exact ⟨by simpa using hj, tickEffect_egrp s j, tickEffect_lgrp s j, tickEffect_pin s j⟩

/-! ### The invariant -/

/-- The invariant through a change that keeps the configuration, the lengths and COUNT and what every valid entry
names. -/
theorem State.Inv.of_samePins {s t : State} (h : s.Inv) (hcfg : t.cfg = s.cfg) (hcount : t.count = s.count)
    (hlen : t.channels.length = s.channels.length) (hpins : Memory.wf t = true)
    (hsame : ∀ j, j < s.count.toNat → SamePins (s.channel j) (t.channel j)) (hres : LegalResult t.result) : t.Inv where
  cfg_ok := hcfg ▸ h.cfg_ok
  count_le := by
    rw [hcount, hcfg]
    exact h.count_le
  registry_length := by rw [hlen, hcfg, h.registry_length]
  pins_wf := hpins
  entries_legal j hj := by
    rw [hcount] at hj
    rw [hcfg]
    exact (h.entries_legal j hj).of_samePins (hsame j hj)
  result_legal := hres

/-- A successful REGISTER of a well-formed instruction keeps the invariant: there is room for the entry, and it is legal
(R81, R86). -/
theorem inv_appendChannel {s : State} {e l : Byte} {p : PinIndex} (h : s.Inv)
    (hwf : (Instr.register e l p).wf s.cfg.numGroups = true) (hroom : s.count.toNat ≠ s.cfg.capacity)
    (hhw : aliasesHwPin s.cfg e l p = false) : (appendChannel e l p s).Inv where
  cfg_ok := h.cfg_ok
  count_le := by
    have := h.count_le
    rw [appendChannel_count, appendChannel_cfg, count_succ_toNat h]
    omega
  registry_length := by simpa using h.registry_length
  pins_wf := by simp [Memory.wf_iff, appendChannel_en_length, en_length h, lvl_length h]
  entries_legal j hj := by
    rw [appendChannel_count, count_succ_toNat h] at hj
    by_cases hnew : j = s.count.toNat
    · rw [hnew, appendChannel_channel_new e l p (count_lt_length h hroom)]
      exact newChannel_legal hwf hhw
    · rw [appendChannel_channel_other e l p s hnew]
      exact h.entries_legal j (by omega)
  result_legal := h.result_legal

theorem inv_tickEffect {s : State} (h : s.Inv) : (tickEffect s).Inv :=
  h.of_samePins (tickEffect_cfg s) (tickEffect_count s) (tickEffect_channels_length s)
    (by simp [Memory.wf_iff, en_length h, lvl_length h])
    (fun j _ => ⟨tickEffect_egrp s j, tickEffect_lgrp s j, tickEffect_pin s j⟩)
    (by simpa using h.result_legal)

theorem inv_with_result {s : State} (h : s.Inv) {r : Word} (hr : LegalResult r) : ({ s with result := r } : State).Inv :=
  { h with result_legal := hr }

theorem inv_with_inputs {s : State} (h : s.Inv) (l : List Event) : ({ s with inputs := l } : State).Inv := { h with }

theorem inv_setPinByte {s : State} (h : s.Inv) (r : PinReg) (g : Nat) (v : Byte) : (s.setPinByte r g v).Inv :=
  h.of_samePins (setPinByte_cfg ..) (setPinByte_count ..) (by simp) (memory_wf_setPinByte h.pins_wf r g v)
    (fun j _ => by simp [SamePins]) (by simpa using h.result_legal)

theorem ExecEffect.keeps_inv {s t : State} {i : Instr} (h : s.Inv) (hwf : i.wf s.cfg.numGroups = true)
    (he : ExecEffect s i t) : t.Inv := by
  cases he with
  | ticking | hwPin => exact { h with }
  | full => exact inv_with_result h legalResult_resultFull
  | appended e l p _ hroom hhw => exact inv_with_result (inv_appendChannel h hwf hroom hhw) (legalResult_resultOk _)
  | noChannel => exact inv_with_result h legalResult_resultInvalidIndex
  | dutyChanged i v =>
    exact h.of_samePins rfl rfl (by simp) h.pins_wf (fun j _ => samePins_setChannel_changeDuty s i.toNat j s.ten v)
      (legalResult_resultOk i)
  | tick => exact inv_tickEffect h
  | ctrl => exact { h with result_legal := legalResult_resultOk 0 }
  | illegal => exact inv_with_result h legalResult_resultIllegal

theorem EventEffect.keeps_inv {s t : State} {ev : Event} (h : s.Inv) (he : EventEffect s ev t) : t.Inv := by
  cases he with
  | tick => exact inv_tickEffect h
  | read => exact { h with }
  | ignored => exact h
  | command w he => exact he.keeps_inv h (decode_wf _ w)
  | pinWrite r g v => exact inv_setPinByte h r g v

/-- Settles O33: the event is taken out of the inputs, which the invariant does not read, and its effect keeps it. -/
theorem stepKeepsTheInvariant : Obligations.StepKeepsTheInvariant := by
  intro s t h hstep
  obtain ⟨-, ⟨-, rfl⟩ | ⟨ev, rest, -, he⟩⟩ := step_effect hstep
  · exact h
  · exact he.keeps_inv (inv_with_inputs h rest)

end Sys2Proof.Machine
end

section
/-! The family `10_state`: what the unfilled entries of the registry hold cannot be seen (10_state R35). -/

namespace Sys2Proof.Machine

/-! ### States that differ in their unfilled entries only -/

namespace SameFilled

variable {s t : State}

theorem exists_channels (h : SameFilled s t) : ∃ cs, t = { s with channels := cs } := ⟨_, h.rest.symm⟩

/-- What does not read the registry is the same in both states. -/
theorem eq_of_unread (h : SameFilled s t) {α : Type} (f : State → α)
    (hf : ∀ (u : State) (cs : List Channel), f { u with channels := cs } = f u) : f s = f t := by
  obtain ⟨cs, rfl⟩ := h.exists_channels
  exact (hf s cs).symm

theorem cfg (h : SameFilled s t) : s.cfg = t.cfg := h.eq_of_unread State.cfg fun _ _ => rfl
theorem count (h : SameFilled s t) : s.count = t.count := h.eq_of_unread State.count fun _ _ => rfl
theorem tcnt (h : SameFilled s t) : s.tcnt = t.tcnt := h.eq_of_unread State.tcnt fun _ _ => rfl
theorem ten (h : SameFilled s t) : s.ten = t.ten := h.eq_of_unread State.ten fun _ _ => rfl
theorem faults (h : SameFilled s t) : s.faults = t.faults := h.eq_of_unread State.faults fun _ _ => rfl
theorem inputs (h : SameFilled s t) : s.inputs = t.inputs := h.eq_of_unread State.inputs fun _ _ => rfl
theorem pinByte (h : SameFilled s t) (r : PinReg) (g : Nat) : s.pinByte r g = t.pinByte r g :=
  h.eq_of_unread (fun u => u.pinByte r g) fun _ _ => by cases r <;> rfl

/-- An update that neither reads nor writes the registry and keeps COUNT. -/
theorem map (h : SameFilled s t) (f : State → State)
    (hf : ∀ (u : State) (l : List Channel), { f u with channels := l } = f { u with channels := l })
    (hchan : ∀ u, (f u).channels = u.channels) (hcount : ∀ u, (f u).count = u.count) : SameFilled (f s) (f t) where
  rest := by rw [hf, hchan, h.rest]
  length := by rw [hchan, hchan, h.length]
  filled i hi := by
    rw [hcount] at hi
    rw [State.channel, State.channel, hchan, hchan]
    exact h.filled i hi

theorem with_inputs (h : SameFilled s t) (l : List Event) : SameFilled { s with inputs := l } { t with inputs := l } :=
  h.map (fun u => { u with inputs := l }) (fun _ _ => rfl) (fun _ => rfl) (fun _ => rfl)

theorem with_result (h : SameFilled s t) (r : Word) : SameFilled { s with result := r } { t with result := r } :=
  h.map (fun u => { u with result := r }) (fun _ _ => rfl) (fun _ => rfl) (fun _ => rfl)

theorem with_ten (h : SameFilled s t) (b : BitVec 1) : SameFilled { s with ten := b } { t with ten := b } :=
  h.map (fun u => { u with ten := b }) (fun _ _ => rfl) (fun _ => rfl) (fun _ => rfl)

theorem with_draws (h : SameFilled s t) (n : Nat) : SameFilled { s with draws := n } { t with draws := n } :=
  h.map (fun u => { u with draws := n }) (fun _ _ => rfl) (fun _ => rfl) (fun _ => rfl)

theorem append_fault (h : SameFilled s t) (r : Fault) :
    SameFilled { s with faults := s.faults ++ [r] } { t with faults := t.faults ++ [r] } :=
  h.map (fun u => { u with faults := u.faults ++ [r] }) (fun _ _ => rfl) (fun _ => rfl) (fun _ => rfl)

theorem append_observed (h : SameFilled s t) (o : Observation) :
    SameFilled { s with observed := s.observed ++ [o] } { t with observed := t.observed ++ [o] } :=
  h.map (fun u => { u with observed := u.observed ++ [o] }) (fun _ _ => rfl) (fun _ => rfl) (fun _ => rfl)

theorem advanceCounter (h : SameFilled s t) : SameFilled (advanceCounter s) (advanceCounter t) :=
  h.map Machine.advanceCounter (fun _ _ => rfl) (fun _ => rfl) (fun _ => rfl)

theorem setPinByte (h : SameFilled s t) (r : PinReg) (g : Nat) (v : Byte) :
    SameFilled (s.setPinByte r g v) (t.setPinByte r g v) :=
  h.map (fun u => u.setPinByte r g v) (fun _ _ => by cases r <;> rfl) (by simp) (by simp)

theorem drivePinBit (h : SameFilled s t) (r : PinReg) (g : Nat) (b : PinIndex) (x : Bool) :
    SameFilled (s.drivePinBit r g b x) (t.drivePinBit r g b x) := by
  rw [State.drivePinBit, State.drivePinBit, h.pinByte]
  exact h.setPinByte r g _

/-- The entry just written reads alike in registries of one length, beyond their end too. -/
theorem channel_setChannel (h : SameFilled s t) (i : Nat) (c : Channel) :
    (s.setChannel i c).channel i = (t.setChannel i c).channel i := by
  simp [State.channel, List.getElem?_set, h.length]

theorem setChannel (h : SameFilled s t) (i : Nat) (c : Channel) : SameFilled (s.setChannel i c) (t.setChannel i c) where
  rest := by
    obtain ⟨cs, rfl⟩ := h.exists_channels
    rfl
  length := by simp [h.length]
  filled j hj := by
    by_cases hji : j = i
    · rw [hji]
      exact h.channel_setChannel i c
    · rw [channel_setChannel_other s c hji, channel_setChannel_other t c hji]
      exact h.filled j hj

/-- REGISTER fills the first unfilled entry whole, so the states stay alike with one more entry filled. -/
theorem appendChannel (h : SameFilled s t) (e l : Byte) (p : PinIndex) :
    SameFilled (appendChannel e l p s) (appendChannel e l p t) where
  rest := by
    obtain ⟨cs, rfl⟩ := h.exists_channels
    rfl
  length := by simp [h.length, h.count]
  filled j hj := by
    have hcount := BitVec.toNat_add s.count 1
    rw [appendChannel_count] at hj
    by_cases hnew : j = s.count.toNat
    · simp only [Machine.appendChannel, channel_with_count, drivePinBit_channel, ← h.count, hnew]
      exact h.channel_setChannel _ _
    · rw [appendChannel_channel_other e l p s hnew, appendChannel_channel_other e l p t (h.count ▸ hnew)]
      refine h.filled j ?_
      have : (1 : BitVec 4).toNat = 1 := rfl
      omega

/-- The body of TICK's loop, for an entry that is filled. -/
theorem driveChannel (h : SameFilled s t) {i : Nat} (hi : i < s.count.toNat) :
    SameFilled (driveChannel s i) (driveChannel t i) := by
  have hc := h.filled i hi
  obtain ⟨cs, rfl⟩ := h.exists_channels
  simp only [Machine.driveChannel, ← hc]
  exact ((h.with_draws _).setChannel _ _).drivePinBit ..

theorem driveChannels (h : SameFilled s t) (n : Nat) (hn : n ≤ s.count.toNat) :
    SameFilled (driveChannels n s) (driveChannels n t) := by
  induction n with
  | zero => exact h
  | succ n ih =>
    refine (ih (Nat.le_of_succ_le hn)).driveChannel ?_
    rw [driveChannels_frame]
    exact hn

theorem tickEffect (h : SameFilled s t) : SameFilled (tickEffect s) (tickEffect t) := by
  rw [Machine.tickEffect, Machine.tickEffect, ← h.count]
  exact h.advanceCounter.driveChannels _ le_rfl

/-- What a read of the window shows (20_memory R53): CHAN shows filled entries only. -/
theorem windowWord (h : SameFilled s t) (w : WindowReg) : windowWord s w = windowWord t w := by
  cases w with
  | cmd | reserved => rfl
  | result => exact h.eq_of_unread State.result fun _ _ => rfl
  | status => simp only [Machine.windowWord, State.status, h.cfg, h.ten, h.tcnt, h.count]
  | chan i =>
    by_cases hi : i < s.count.toNat
    · simp [Machine.windowWord, State.chan, State.isValid, ← h.count, h.filled i hi]
    · simp [Machine.windowWord, State.chan, State.isValid, ← h.count, hi]

end SameFilled

/-! ### The same answer from states that differ in their unfilled entries only -/

/-- Two answers that are alike: next states that differ in their unfilled entries only, one fault, or one refusal. -/
inductive SameAnswer : Answer → Answer → Prop
  | next {s t : State} (h : SameFilled s t) : SameAnswer (.next s) (.next t)
  | fault (r : Fault) : SameAnswer (.fault r) (.fault r)
  | refused (r : Refusal) : SameAnswer (.refused r) (.refused r)

namespace SameAnswer

theorem of_next {s' : State} {a : Answer} (h : SameAnswer (.next s') a) : ∃ t', a = .next t' ∧ SameFilled s' t' := by
  cases h with
  | next h => exact ⟨_, rfl, h⟩

theorem of_fault {r : Fault} {a : Answer} (h : SameAnswer (.fault r) a) : a = .fault r := by
  cases h
  rfl

theorem of_refused {r : Refusal} {a : Answer} (h : SameAnswer (.refused r) a) : a = .refused r := by
  cases h
  rfl

end SameAnswer

section
variable {s t : State}

/-- Each outcome's condition reads no unfilled entry, so the other state has that outcome too. -/
theorem ExecEffect.sameFilled (h : SameFilled s t) {i : Instr} {s' : State} (he : ExecEffect s i s') :
    ∃ t', ExecEffect t i t' ∧ SameFilled s' t' := by
  cases he with
  | ticking e l p hten => exact ⟨_, .ticking e l p (h.ten ▸ hten), h.append_fault _⟩
  | full e l p hten hfull => exact ⟨_, .full e l p (h.ten ▸ hten) (h.count ▸ h.cfg ▸ hfull), h.with_result _⟩
  | hwPin e l p hten hroom hhw =>
    exact ⟨_, .hwPin e l p (h.ten ▸ hten) (h.count ▸ h.cfg ▸ hroom) (h.cfg ▸ hhw), h.append_fault _⟩
  | appended e l p hten hroom hhw =>
    refine ⟨_, .appended e l p (h.ten ▸ hten) (h.count ▸ h.cfg ▸ hroom) (h.cfg ▸ hhw), ?_⟩
    rw [← h.count]
    exact (h.appendChannel e l p).with_result _
  | noChannel i v hi => exact ⟨_, .noChannel i v (h.count ▸ hi), h.with_result _⟩
  | dutyChanged i v hi =>
    refine ⟨_, .dutyChanged i v (h.count ▸ hi), ?_⟩
    rw [← h.ten, ← h.filled i.toNat hi]
    exact (h.setChannel _ _).with_result _
  | tick => exact ⟨_, .tick, h.tickEffect⟩
  | ctrl b => exact ⟨_, .ctrl b, (h.with_ten b).with_result _⟩
  | illegal w => exact ⟨_, .illegal w, h.with_result _⟩

theorem sameAnswer_exec (h : SameFilled s t) (i : Instr) : SameAnswer (exec i s) (exec i t) := by
  obtain ⟨s', hs⟩ := exists_execEffect s i
  obtain ⟨t', ht, hst⟩ := hs.sameFilled h
  rw [hs.exec_eq, ht.exec_eq]
  exact .next hst

theorem sameAnswer_windowWrite (h : SameFilled s t) (v : Word) (w : WindowReg) :
    SameAnswer (windowWrite v s w) (windowWrite v t w) := by
  cases w with
  | cmd =>
    rw [windowWrite, windowWrite, h.cfg]
    exact sameAnswer_exec h _
  | result | status | reserved | chan => exact .next h

/-- An access is checked against the configuration alone, and then reads or writes no unfilled entry. -/
theorem sameAnswer_hostStep (h : SameFilled s t) (op : HostOp) : SameAnswer (hostStep op s) (hostStep op t) := by
  cases op with
  | memRead a n =>
    simp only [hostStep, memRead, h.cfg, h.windowWord]
    cases busCheck t.cfg a n with
    | error r => exact .refused r
    | ok off => exact .next (h.append_observed _)
  | memWrite a n v =>
    simp only [hostStep, memWrite, h.cfg]
    cases busCheck t.cfg a n with
    | error r => exact .refused r
    | ok off => exact sameAnswer_windowWrite h v _
  | pinRead r g =>
    simp only [hostStep, pinRead, h.cfg, h.pinByte]
    cases groupCheck t.cfg g with
    | error e => exact .refused e
    | ok g => exact .next (h.append_observed _)
  | pinWrite r g v =>
    simp only [hostStep, pinWrite, h.cfg]
    cases groupCheck t.cfg g with
    | error e => exact .refused e
    | ok g => exact .next (h.setPinByte r g v)

theorem sameAnswer_eventStep (h : SameFilled s t) (ev : Event) : SameAnswer (eventStep ev s) (eventStep ev t) := by
  cases ev with
  | host op => exact sameAnswer_hostStep h op
  | tick =>
    simp only [eventStep, tickEvent, h.ten]
    split
    · exact sameAnswer_exec h .tick
    · exact .refused _

/-- With no event left a step answers the same state. -/
theorem step_idle {s : State} (hf : s.faults = []) (hi : s.inputs = []) : step s = .next s := by
  simp [step, nextStep, hf, hi]

theorem sameAnswer_step (h : SameFilled s t) : SameAnswer (step s) (step t) := by
  cases hf : s.faults with
  | cons r rs =>
    rw [step_fault hf, step_fault (h.faults ▸ hf)]
    exact .fault r
  | nil =>
    have hft : t.faults = [] := h.faults ▸ hf
    cases hi : s.inputs with
    | nil =>
      rw [step_idle hf hi, step_idle hft (h.inputs ▸ hi)]
      exact .next h
    | cons ev rest =>
      rw [step_event hf hi, step_event hft (h.inputs ▸ hi)]
      exact sameAnswer_eventStep (h.with_inputs rest) ev

end

/-- Settles O40: the two steps' answers are alike (`sameAnswer_step`), whatever the first one's is. -/
theorem unfilledEntriesAreUnobservable : Obligations.UnfilledEntriesAreUnobservable := by
  intro s t h
  have hans := sameAnswer_step h
  refine ⟨fun s' hs => ?_, fun r hs => ?_, fun r hs => ?_⟩
  · exact (hs ▸ hans).of_next
  · exact (hs ▸ hans).of_fault
  · exact (hs ▸ hans).of_refused

end Sys2Proof.Machine
end

section
/-! The family `10_state`: the frames of the instructions, the writers of each element (10_state R44), and the views
STATUS and CHAN (10_state R33, R34). -/

namespace Sys2Proof.Machine

/-! ### What a successful REGISTER leaves of the fields it does not write -/

@[simp] theorem appendChannel_tcnt (e l : Byte) (p : PinIndex) (s : State) : (appendChannel e l p s).tcnt = s.tcnt := rfl
@[simp] theorem appendChannel_ten (e l : Byte) (p : PinIndex) (s : State) : (appendChannel e l p s).ten = s.ten := rfl
@[simp] theorem appendChannel_faults (e l : Byte) (p : PinIndex) (s : State) :
    (appendChannel e l p s).faults = s.faults := rfl

/-! ### FAULTS -/

/-- An instruction keeps FAULTS, or is a REGISTER that appends one reason (60_exceptions R107). -/
theorem ExecEffect.faults_cases {s t : State} {i : Instr} (he : ExecEffect s i t) :
    t.faults = s.faults ∨ ∃ r, t.faults = s.faults ++ [r] := by
  cases he with
  | ticking | hwPin => exact .inr ⟨_, rfl⟩
  | full | appended | noChannel | dutyChanged | ctrl | illegal => exact .inl rfl
  | tick => exact .inl (tickEffect_faults s)

theorem EventEffect.faults_cases {s t : State} {ev : Event} (he : EventEffect s ev t) :
    t.faults = s.faults ∨ ∃ r, t.faults = s.faults ++ [r] := by
  cases he with
  | tick => exact .inl (tickEffect_faults s)
  | read | ignored => exact .inl rfl
  | command w he => exact he.faults_cases
  | pinWrite r g v => exact .inl (setPinByte_faults ..)

/-- Settles O15: reset leaves FAULTS empty, and a step starts with it empty (`step_effect`) and appends at most one
reason. -/
theorem faultsOnlyGrow : Obligations.FaultsOnlyGrow := by
  refine ⟨fun _ => rfl, fun s t hstep => ?_, fun s hne t hstep => hne (step_effect hstep).1⟩
  obtain ⟨hf, ⟨-, rfl⟩ | ⟨ev, rest, -, he⟩⟩ := step_effect hstep
  · exact ⟨hf, .inl hf⟩
  · have hcases := he.faults_cases
    simp only [hf, List.nil_append] at hcases
    exact ⟨hf, hcases⟩

/-! ### The pin of a channel after a TICK -/

/-- Settles O23: the pin is none of HW_PWM_PINS, TICK writes no EN byte, and the level is the one of
`tickEffect_levelOf_not_stale`. -/
theorem drivenPinShowsTheWaveform : Obligations.DrivenPinShowsTheWaveform := by
  intro s i h hi hstale htop
  refine ⟨tickEffect s, rfl, ?_⟩
  have hen : (tickEffect s).pinByte .en (s.channel i).lgrp.toNat = s.pinByte .en (s.channel i).lgrp.toNat := by
    simp [State.pinByte, State.pinArray]
  have hlevel := tickEffect_levelOf_not_stale hi (lgrp_lt_lvl_length h hi) htop hstale
  rw [levelOf, tickEffect_lgrp, tickEffect_pin] at hlevel
  rw [State.pinLevel, tickEffect_cfg, if_neg (h.entries_legal i hi).level_not_hw, hen, hlevel, tickEffect_tcnt]

/-! ### RESULT is not read -/

/-- Settles O32: no outcome's condition reads RESULT, so the same outcome is the one whatever RESULT held. -/
theorem noInstructionReadsResult : Obligations.NoInstructionReadsResult := by
  intro i s t r h
  simp only [exec_eq_next_iff] at h ⊢
  cases h with
  | ticking e l p hten => exact ⟨_, .ticking e l p hten, rfl⟩
  | full e l p hten hfull => exact ⟨_, .full e l p hten hfull, rfl⟩
  | hwPin e l p hten hroom hhw => exact ⟨_, .hwPin e l p hten hroom hhw, rfl⟩
  | appended e l p hten hroom hhw => exact ⟨_, .appended e l p hten hroom hhw, rfl⟩
  | noChannel i v hi => exact ⟨_, .noChannel i v hi, rfl⟩
  | dutyChanged i v hi => exact ⟨_, .dutyChanged i v hi, rfl⟩
  | tick =>
    refine ⟨_, .tick, ?_⟩
    rw [tickEffect_with_result]
  | ctrl b => exact ⟨_, .ctrl b, rfl⟩
  | illegal w => exact ⟨_, .illegal w, rfl⟩

/-! ### Filled entries -/

theorem EventEffect.keeps_entry {s t : State} {ev : Event} (h : s.Inv) (he : EventEffect s ev t) {j : Nat}
    (hj : j < s.count.toNat) : j < t.count.toNat ∧ SamePins (s.channel j) (t.channel j) := by
  cases he with
  | tick => exact ExecEffect.tick.keeps_entry h hj
  | read | ignored => exact ⟨hj, rfl, rfl, rfl⟩
  | command w he => exact he.keeps_entry h hj
  | pinWrite r g v => simpa [SamePins] using hj

/-- A REGISTER that leaves COUNT as it was wrote no entry: only the successful one does, and it counts up. -/
theorem register_channels_of_count_eq {s t : State} {e l : Byte} {p : PinIndex} (he : ExecEffect s (.register e l p) t)
    (hcount : t.count = s.count) : t.channels = s.channels := by
  cases he with
  | ticking | full | hwPin => rfl
  | appended =>
    have hsucc : s.count + 1 = s.count := hcount
    simp at hsucc

/-- Settles O35, from what every event keeps of a valid entry. -/
theorem filledEntriesKeepTheirPin : Obligations.FilledEntriesKeepTheirPin := by
  refine ⟨fun s t i h hstep hi => ?_, fun s t e l p h => register_channels_of_count_eq (exec_eq_next_iff.mp h)⟩
  obtain ⟨-, ⟨-, rfl⟩ | ⟨ev, rest, -, he⟩⟩ := step_effect hstep
  · exact ⟨hi, rfl, rfl, rfl⟩
  · exact he.keeps_entry (inv_with_inputs h rest) hi

/-! ### Frames -/

/-- Settles O37, outcome by outcome. -/
theorem registerFrame : Obligations.RegisterFrame := by
  intro s t e l p h
  cases exec_eq_next_iff.mp h with
  | ticking | full | hwPin => exact ⟨fun _ _ => rfl, fun _ _ _ => rfl, rfl⟩
  | appended =>
    exact ⟨fun j hj => appendChannel_channel_other e l p s hj, fun g b hgb => appendChannel_enable_other e l p s hgb, rfl⟩

/-- Settles O38, outcome by outcome. -/
theorem setDutyFrame : Obligations.SetDutyFrame := by
  intro s t i v h
  cases exec_eq_next_iff.mp h with
  | noChannel => exact ⟨fun _ _ => rfl, ⟨rfl, rfl, rfl⟩, rfl⟩
  | dutyChanged =>
    exact ⟨fun j hj => channel_setChannel_other s _ hj, samePins_setChannel_changeDuty s i.toNat i.toNat s.ten v, rfl⟩

/-- Settles O39, from what TICK's loop leaves of each entry and of each level bit. -/
theorem tickFrame : Obligations.TickFrame := by
  intro s t h
  obtain rfl : tickEffect s = t := Host.Outcome.next.inj h
  refine ⟨fun i => ?_, fun i hi => ?_, tickEffect_level_other s, ?_⟩
  · rw [tickEffect_channel]
    split <;> rfl
  · rw [tickEffect_channel, if_neg (not_lt.mpr hi)]
  · rw [tickEffect_tcnt]
    exact tickEffect_frame s

/-! ### Writers -/

/-- Settles O36, outcome by outcome of the next event: an outcome's update names the elements it writes, and `decode` names
the command that wrote them. -/
theorem eachElementHasItsWriters : Obligations.EachElementHasItsWriters := by
  intro s t hstep
  obtain ⟨-, ⟨-, rfl⟩ | ⟨ev, rest, hi, he⟩⟩ := step_effect hstep
  · simp
  · rw [hi, List.head?_cons]
    cases he with
    | tick hten => simp [show s.ten = 1 from hten]
    | read | ignored => simp
    | pinWrite r g v => cases r <;> simp
    | command w he =>
      generalize hd : decode s.cfg.numGroups w = i at he
      cases he with
      | tick => exact absurd hd (decode_ne_tick _ _)
      | ticking e l p hten => simp [hd]
      | full => simp
      | hwPin => simp [hd]
      | appended e l p hten => simp [hd, show ¬ s.ten = 1#1 from hten]
      | noChannel => simp
      | dutyChanged => simp [hd]
      | ctrl => simp [hd]
      | illegal => simp

/-! ### The views STATUS and CHAN -/

/-- A write to a word of the window other than CMD changes nothing (20_memory R55). -/
theorem hostStep_write_ignored (s : State) (v : Word) {k : Nat} (h1 : 1 ≤ k) (h16 : k < 16) :
    hostStep (.memWrite (s.cfg.base + 4 * k) 4 v) s = .next s := by
  simp only [hostStep, memWrite, busCheck_word s.cfg h16]
  rcases windowWrite_cases v s (windowReg (4 * k)) with ⟨hcmd, -⟩ | ⟨-, hw⟩
  · have := (windowReg_eq_cmd_iff _).mp hcmd
    omega
  · exact hw

/-- A field put under a word whose low `k` bits are zero is added to it. -/
theorem toNat_or_of_dvd {w : Nat} {x y : BitVec w} (k : Nat) (hx : 2 ^ k ∣ x.toNat) (hy : y.toNat < 2 ^ k) :
    (x ||| y).toNat = x.toNat + y.toNat := by
  obtain ⟨a, ha⟩ := hx
  rw [BitVec.toNat_or, ha, Nat.two_pow_add_eq_or_of_lt hy]

/-- A field moved to bit `k` of a word is added to a word whose bits below the field's end are zero. -/
theorem toNat_or_field {m : Nat} (x : Word) (y : BitVec m) (k : Nat) (hm : m + k ≤ 32) (hx : 2 ^ (m + k) ∣ x.toNat) :
    (x ||| (y.zeroExtend 32 <<< k)).toNat = x.toNat + y.toNat * 2 ^ k := by
  have hlt : y.toNat * 2 ^ k < 2 ^ (m + k) := by
    rw [pow_add]
    exact Nat.mul_lt_mul_of_pos_right y.isLt (Nat.two_pow_pos k)
  have hy : (y.zeroExtend 32 <<< k).toNat = y.toNat * 2 ^ k := by
    rw [BitVec.toNat_shiftLeft, BitVec.toNat_setWidth_of_le (by omega), Nat.shiftLeft_eq,
      Nat.mod_eq_of_lt (lt_of_lt_of_le hlt (Nat.pow_le_pow_right (by decide) hm))]
  rw [toNat_or_of_dvd (m + k) hx (hy ▸ hlt), hy]

/-- The lowest field. -/
theorem toNat_or_lowest {m : Nat} (x : Word) (y : BitVec m) (hm : m ≤ 32) (hx : 2 ^ m ∣ x.toNat) :
    (x ||| y.zeroExtend 32).toNat = x.toNat + y.toNat := by
  simpa using toNat_or_field x y 0 hm hx

theorem status_toNat {s : State} (h : s.Inv) :
    s.status.toNat = s.cfg.capacity * 2 ^ 24 + s.ten.toNat * 2 ^ 16 + s.tcnt.toNat * 2 ^ 8 + s.count.toNat := by
  have := h.cfg_ok.capacity_le
  simp only [State.status, toNat_append_arith, BitVec.toNat_ofNat]
  omega

theorem chanWord_toNat (c : Channel) :
    (chanWord c).toNat = 2 ^ 31 + c.pin.toNat * 2 ^ 24 + c.lgrp.toNat * 2 ^ 16 + c.egrp.toNat * 2 ^ 8 + c.duty.toNat := by
  simp only [chanWord, toNat_append_arith, BitVec.toNat_ofNat]
  omega

/-- R33's formula: each field is put under those above it. -/
theorem status_eq {s : State} (h : s.Inv) :
    s.status = (BitVec.ofNat 32 s.cfg.capacity <<< 24) ||| (s.ten.zeroExtend 32 <<< 16) ||| (s.tcnt.zeroExtend 32 <<< 8)
      ||| s.count.zeroExtend 32 := by
  have hle := h.cfg_ok.capacity_le
  have hcap : (BitVec.ofNat 32 s.cfg.capacity <<< 24).toNat = s.cfg.capacity * 2 ^ 24 := by
    rw [BitVec.toNat_shiftLeft, BitVec.toNat_ofNat, Nat.shiftLeft_eq]
    omega
  have hten := toNat_or_field (BitVec.ofNat 32 s.cfg.capacity <<< 24) s.ten 16 (by decide) (by omega)
  have htcnt := toNat_or_field _ s.tcnt 8 (by decide) (by rw [hten, hcap]; omega)
  have hcount := toNat_or_lowest _ s.count (by decide) (by rw [htcnt, hten, hcap]; omega)
  apply BitVec.eq_of_toNat_eq
  rw [hcount, htcnt, hten, hcap, status_toNat h]

/-- R34's formula: each field is put under those above it. -/
theorem chanWord_eq (c : Channel) :
    chanWord c = (1#32 <<< 31) ||| (c.pin.zeroExtend 32 <<< 24) ||| (c.lgrp.zeroExtend 32 <<< 16)
      ||| (c.egrp.zeroExtend 32 <<< 8) ||| c.duty.zeroExtend 32 := by
  have hvalid : (1#32 <<< 31).toNat = 2 ^ 31 := by decide
  have hpin := toNat_or_field (1#32 <<< 31) c.pin 24 (by decide) (by decide)
  have hlgrp := toNat_or_field _ c.lgrp 16 (by decide) (by rw [hpin, hvalid]; omega)
  have hegrp := toNat_or_field _ c.egrp 8 (by decide) (by rw [hlgrp, hpin, hvalid]; omega)
  have hduty := toNat_or_lowest _ c.duty (by decide) (by rw [hegrp, hlgrp, hpin, hvalid]; omega)
  apply BitVec.eq_of_toNat_eq
  rw [hduty, hegrp, hlgrp, hpin, hvalid, chanWord_toNat]

theorem resetWith_status {c : Config} (h : c.capacity = 8) : (State.resetWith c).status = 0x08000000 := by
  simp only [State.status, State.resetWith, h]
  decide

/-- An unfilled slot shows 0 (10_state R34). -/
theorem chan_unfilled {s : State} {i : Nat} (h : ¬ i < s.count.toNat) : s.chan i = 0x00000000 := by
  simp [State.chan, State.isValid, h]

theorem chan_filled {s : State} {i : Nat} (h : i < s.count.toNat) : s.chan i = chanWord (s.channel i) := by
  simp [State.chan, State.isValid, h]

/-- Settles O41: `status_eq`, and each field read off the word's number. -/
theorem statusShowsItsFields : Obligations.StatusShowsItsFields := by
  intro s h
  have hle := h.cfg_ok.capacity_le
  have hten := s.ten.isLt
  have htcnt := s.tcnt.isLt
  have hcount := s.count.isLt
  refine ⟨status_eq h, ?_, ?_, ?_, ?_, ?_, ?_, ?_, fun v => hostStep_write_ignored s v (k := 2) (by decide) (by decide),
    resetWith_status⟩
  all_goals
    rw [status_toNat h]
    omega

/-- Settles O42: a filled slot shows its entry's word (`chanWord_eq`), every other slot 0, and a slot is no CMD. -/
theorem chanShowsItsEntry : Obligations.ChanShowsItsEntry := by
  intro s i
  refine ⟨fun hi v => ?_, chan_unfilled (Nat.not_lt_zero i), ?_⟩
  · rw [show 0x10 + 4 * i = 4 * (4 + i) by omega]
    exact hostStep_write_ignored s v (by omega) (by omega)
  · split
    · next hi => rw [chan_filled hi, chanWord_eq]
    · next hi => exact chan_unfilled hi

end Sys2Proof.Machine
end

section
/-! The family `20_memory`: what each access of the host answers once its check is decided (20_memory R51, R57), what a
window access and a pin-group access then do (R52 to R58), and which accesses complete without a fault. -/

namespace Sys2Proof

/-! ### The bytes of a word -/

/-- The four bytes in address order are those of R52. -/
theorem bytesOfWord_getElem? (w : Word) {k : Nat} (hk : k < 4) : (bytesOfWord w)[k]? = some (wordByte w k) := by
  interval_cases k <;> rfl

theorem wordOfBytes_wordByte (w : Word) :
    wordOfBytes (wordByte w 0) (wordByte w 1) (wordByte w 2) (wordByte w 3) = w := by
  have hw := w.isLt
  apply BitVec.eq_of_toNat_eq
  simp only [wordOfBytes, wordByte, toNat_append_arith, toNat_field]
  omega

theorem decodeBytes_bytesOfWord (n : Nat) (w : Word) (rest : List Byte) :
    decodeBytes n (bytesOfWord w ++ rest) = .ok (decodeTrace n w, rest) := by
  simp only [bytesOfWord, List.cons_append, List.nil_append, decodeBytes, wordOfBytes_wordByte]

/-- Settles O8: a byte is a quotient and remainder of the word's number (`toNat_field`), and the four put together again
are the word (`wordOfBytes_wordByte`). -/
theorem wordBytesAreLittleEndian : Obligations.WordBytesAreLittleEndian := fun w =>
  ⟨fun k hk => ⟨wordByte w k, bytesOfWord_getElem? w hk, toNat_field w (8 * k) 8⟩,
    fun n rest => decodeBytes_bytesOfWord n w rest⟩

end Sys2Proof

namespace Sys2Proof.Machine

section
variable {s t : State} {a n off g : Nat}

/-! ### What an access answers, by its check -/

theorem hostStep_memRead_of_ok (h : busCheck s.cfg a n = .ok off) :
    hostStep (.memRead a n) s = .next { s with observed := s.observed ++ [.word (windowWord s (windowReg off))] } := by
  simp only [hostStep, memRead, h, observe]

theorem hostStep_memWrite_of_ok (h : busCheck s.cfg a n = .ok off) (v : Word) :
    hostStep (.memWrite a n v) s = windowWrite v s (windowReg off) := by
  simp only [hostStep, memWrite, h]

/-- A window access the check refuses is refused, a read and a write alike. -/
theorem hostStep_window_of_error {r : Refusal} (h : busCheck s.cfg a n = .error r) (v : Word) :
    hostStep (.memRead a n) s = .refused r ∧ hostStep (.memWrite a n v) s = .refused r := by
  simp only [hostStep, memRead, memWrite, h, and_self]

theorem hostStep_pinRead_of_lt (h : g < s.cfg.numGroups) (r : PinReg) :
    hostStep (.pinRead r g) s = .next { s with observed := s.observed ++ [.byte (s.pinByte r g)] } := by
  simp only [hostStep, pinRead, (groupCheck_ok_iff s.cfg g g).mpr ⟨h, rfl⟩, observe]

theorem hostStep_pinWrite_of_lt (h : g < s.cfg.numGroups) (r : PinReg) (v : Byte) :
    hostStep (.pinWrite r g v) s = .next (s.setPinByte r g v) := by
  simp only [hostStep, pinWrite, (groupCheck_ok_iff s.cfg g g).mpr ⟨h, rfl⟩]

/-- A pin-group access to a group that does not exist is refused, a read and a write alike (20_memory R57). -/
theorem hostStep_pin_of_le (h : s.cfg.numGroups ≤ g) (r : PinReg) (v : Byte) :
    hostStep (.pinRead r g) s = .refused .noSuchGroup ∧ hostStep (.pinWrite r g v) s = .refused .noSuchGroup := by
  simp only [hostStep, pinRead, pinWrite, groupCheck, if_pos h, and_self]

/-! ### Which accesses answer a next state -/

theorem hostStep_memRead_eq_next_iff :
    hostStep (.memRead a n) s = .next t ↔ ∃ off, busCheck s.cfg a n = .ok off
      ∧ t = { s with observed := s.observed ++ [.word (windowWord s (windowReg off))] } := by
  cases hb : busCheck s.cfg a n with
  | error r => simp [(hostStep_window_of_error hb 0).1]
  | ok off => simp [hostStep_memRead_of_ok hb, eq_comm]

theorem hostStep_memWrite_eq_next_iff {v : Word} :
    hostStep (.memWrite a n v) s = .next t ↔ ∃ off, busCheck s.cfg a n = .ok off
      ∧ windowWrite v s (windowReg off) = .next t := by
  cases hb : busCheck s.cfg a n with
  | error r => simp [(hostStep_window_of_error hb v).2]
  | ok off => simp [hostStep_memWrite_of_ok hb]

theorem hostStep_pinRead_eq_next_iff {r : PinReg} :
    hostStep (.pinRead r g) s = .next t ↔ g < s.cfg.numGroups
      ∧ t = { s with observed := s.observed ++ [.byte (s.pinByte r g)] } := by
  by_cases hg : g < s.cfg.numGroups
  · simp [hostStep_pinRead_of_lt hg, hg, eq_comm]
  · simp [(hostStep_pin_of_le (not_lt.mp hg) r 0).1, hg]

theorem hostStep_pinWrite_eq_next_iff {r : PinReg} {v : Byte} :
    hostStep (.pinWrite r g v) s = .next t ↔ g < s.cfg.numGroups ∧ t = s.setPinByte r g v := by
  by_cases hg : g < s.cfg.numGroups
  · simp [hostStep_pinWrite_of_lt hg, hg, eq_comm]
  · simp [(hostStep_pin_of_le (not_lt.mp hg) r v).2, hg]

end

/-! ### Reads -/

/-- No register of the window shows what earlier reads returned (20_memory R54). -/
theorem windowWord_with_observed (s : State) (l : List Observation) (w : WindowReg) :
    windowWord { s with observed := l } w = windowWord s w := by
  cases w <;> rfl

/-- Settles O44: the check of a read and the value it returns do not depend on `observed`, the one field it writes. -/
theorem readsHaveNoSideEffects : Obligations.ReadsHaveNoSideEffects := by
  rintro s t op (⟨a, n, rfl⟩ | ⟨r, g, rfl⟩) h
  · obtain ⟨off, hb, ht⟩ := hostStep_memRead_eq_next_iff.mp h
    have hbt : busCheck t.cfg a n = .ok off := by rwa [ht]
    have hw : windowWord t (windowReg off) = windowWord s (windowReg off) := by rw [ht, windowWord_with_observed]
    exact ⟨_, ht, hw ▸ hostStep_memRead_of_ok hbt⟩
  · obtain ⟨hg, ht⟩ := hostStep_pinRead_eq_next_iff.mp h
    have hgt : g < t.cfg.numGroups := by rwa [ht]
    have hb : t.pinByte r g = s.pinByte r g := by rw [ht, pinByte_with_observed]
    exact ⟨_, ht, hb ▸ hostStep_pinRead_of_lt hgt r⟩

/-- A read of word `k` of the window returns its register (20_memory R53). -/
theorem hostStep_memRead_word (s : State) {k : Nat} (hk : k < 16) :
    hostStep (.memRead (s.cfg.base + 4 * k) 4) s
      = .next { s with observed := s.observed ++ [.word (windowWord s (windowReg (4 * k)))] } :=
  hostStep_memRead_of_ok (busCheck_word s.cfg hk)

/-- Settles O43: words 0 to 3 are the registers R48 names, and word 4 + i is CHAN[i] (`windowReg_chan`). -/
theorem windowReadsReturnTheirWord : Obligations.WindowReadsReturnTheirWord := by
  intro s
  refine ⟨hostStep_memRead_word s (k := 0) (by decide), hostStep_memRead_word s (k := 1) (by decide),
    hostStep_memRead_word s (k := 2) (by decide), hostStep_memRead_word s (k := 3) (by decide), fun i hi => ?_⟩
  have hread := hostStep_memRead_word s (k := 4 + i) (by omega)
  rwa [show 4 * (4 + i) = 0x10 + 4 * i by omega, windowReg_chan hi] at hread

/-! ### Writes to the window -/

/-- Settles O45: `hostStep_cmd` for CMD, `hostStep_write_ignored` for the words after it. -/
theorem onlyCmdWritesHaveAnEffect : Obligations.OnlyCmdWritesHaveAnEffect := fun s v =>
  ⟨hostStep_cmd s v, fun _ h1 h16 => hostStep_write_ignored s v h1 h16⟩

/-- An accepted write is a command or ignored, so it always answers a next state. -/
theorem windowWrite_next (v : Word) (s : State) (w : WindowReg) : ∃ t, windowWrite v s w = .next t := by
  rcases windowWrite_cases v s w with ⟨-, hw⟩ | ⟨-, hw⟩
  · rw [hw]
    exact exec_next _ s
  · exact ⟨s, hw⟩

/-! ### The check of a window access -/

section
variable {c : Config} {a n : Nat}

theorem busCheck_of_width (hlo : c.base ≤ a) (hhi : a < c.base + 0x40) (hn : n ≠ 4) :
    busCheck c a n = .error .busWidth := by
  rw [busCheck, if_neg (by omega), if_pos hn]

theorem busCheck_of_misaligned (hlo : c.base ≤ a) (hhi : a < c.base + 0x40) (ha : (a - c.base) % 4 ≠ 0) :
    busCheck c a 4 = .error .busMisaligned := by
  rw [busCheck, if_neg (by omega), if_neg (by decide), if_pos ha]

end

/-- Settles O46: the check refuses for the width, then for the alignment, and else accepts; an accepted access answers a
next state. -/
theorem windowAdmitsAlignedWordsOnly : Obligations.WindowAdmitsAlignedWordsOnly := by
  intro s a n v hlo hhi
  refine ⟨fun hn => hostStep_window_of_error (busCheck_of_width hlo hhi hn) v, ?_, ?_⟩
  · rintro rfl ha
    exact hostStep_window_of_error (busCheck_of_misaligned hlo hhi ha) v
  · rintro rfl ha
    have hok : busCheck s.cfg a 4 = .ok (a - s.cfg.base) := (busCheck_ok_iff ..).mpr ⟨rfl, hlo, hhi, ha, rfl⟩
    refine ⟨⟨_, hostStep_memRead_of_ok hok⟩, ?_⟩
    rw [hostStep_memWrite_of_ok hok]
    exact windowWrite_next v s _

/-! ### Accesses to the pin-group space -/

theorem setPinByte_frame (s : State) (r : PinReg) (g : Nat) (v : Byte) :
    s.setPinByte r g v = { s with en := (s.setPinByte r g v).en, lvl := (s.setPinByte r g v).lvl } := by
  cases r <;> rfl

/-- Settles O47: the read rule, and of the write the byte itself, the other bytes and the frame. -/
theorem pinAccessesReadAndWriteWholeBytes : Obligations.PinAccessesReadAndWriteWholeBytes := by
  intro s r g v h
  refine ⟨fun hg => ⟨hostStep_pinRead_of_lt hg r, _, hostStep_pinWrite_of_lt hg r v, ?_, ?_, setPinByte_frame s r g v⟩,
    fun hg => hostStep_pin_of_le hg r v⟩
  · exact pinByte_setPinByte_same v (by rwa [pinArray_length h.pins_wf r])
  · exact fun r' g' hne => pinByte_setPinByte_other s v hne

theorem setPinByte_topOnItsBit {s : State} {i : Nat} (h : TopOnItsBit s i) (r : PinReg) (g : Nat) (v : Byte) :
    TopOnItsBit (s.setPinByte r g v) i := by
  simpa [TopOnItsBit] using h

/-- Settles O48: the byte reads as written; then TICK drives the channel's bit (`tickEffect_levelOf_not_stale`) and leaves
the bits no channel names (`tickEffect_level_other`). -/
theorem hostLevelWriteLastsUntilTheNextTick : Obligations.HostLevelWriteLastsUntilTheNextTick := by
  intro s i v h hi hstale htop
  set g := (s.channel i).lgrp.toNat with hg
  have hlt : g < s.lvl.length := lgrp_lt_lvl_length h hi
  have hwritten : (s.setPinByte .lvl g v).pinByte .lvl g = v := pinByte_setPinByte_same v hlt
  refine ⟨s.setPinByte .lvl g v, tickEffect (s.setPinByte .lvl g v),
    hostStep_pinWrite_of_lt (lvl_length h ▸ hlt) .lvl v, ?_, rfl, ?_, fun b hb => ?_⟩
  · rw [levelOf, setPinByte_channel, ← hg, hwritten]
  · have hdriven := tickEffect_levelOf_not_stale (s := s.setPinByte .lvl g v) (i := i) (by simpa using hi)
      (by simpa using hlt) (setPinByte_topOnItsBit htop .lvl g v) (by simpa using hstale)
    rw [hdriven, tickEffect_tcnt, setPinByte_channel]
  · rw [tickEffect_level_other _ g b, hwritten]
    intro j hj hbit
    rw [setPinByte_channel, hg, BitVec.toNat_inj] at hbit
    exact hb j (by simpa using hj) hbit

/-! ### What completes without a fault -/

/-- A REGISTER has an outcome without a fault with TEN = 0 and the registry full or no pin of HW_PWM_PINS named; every
other instruction always has one (40_registry R81, R83, R85, R86). -/
theorem ExecEffect.faults_eq_iff {s t : State} {i : Instr} (he : ExecEffect s i t) :
    t.faults = s.faults ↔ ∀ e l p, i = .register e l p →
      s.ten = 0 ∧ (s.count.toNat = s.cfg.capacity ∨ aliasesHwPin s.cfg e l p = false) := by
  cases he with
  | ticking e l p hten => simp [hten]
  | full e l p hten hfull => simp [(ten_ne_one_iff _).mp hten, hfull]
  | hwPin e l p hten hroom hhw => simp [hroom, hhw]
  | appended e l p hten hroom hhw => simp [(ten_ne_one_iff _).mp hten, hhw]
  | noChannel | dutyChanged | tick | ctrl | illegal => simp

theorem commandHasOutcome_iff (s : State) (w : Word) :
    CommandHasOutcome s w ↔ ∀ e l p, decode s.cfg.numGroups w = .register e l p →
      s.ten = 0 ∧ (s.count.toNat = s.cfg.capacity ∨ aliasesHwPin s.cfg e l p = false) := by
  unfold CommandHasOutcome
  cases decode s.cfg.numGroups w <;> simp

theorem exec_keeps_faults_iff (s : State) (w : Word) :
    (∃ t, exec (decode s.cfg.numGroups w) s = .next t ∧ t.faults = s.faults) ↔ CommandHasOutcome s w := by
  rw [commandHasOutcome_iff]
  constructor
  · rintro ⟨t, ht, hf⟩
    exact (exec_eq_next_iff.mp ht).faults_eq_iff.mp hf
  · intro h
    obtain ⟨t, he⟩ := exists_execEffect s (decode s.cfg.numGroups w)
    exact ⟨t, he.exec_eq, he.faults_eq_iff.mpr h⟩

/-- A write to CMD has the outcome of its word, a write to another register keeps FAULTS whatever the word. -/
theorem windowWrite_keeps_faults_iff (s : State) (v : Word) (off : Nat) :
    (∃ t, windowWrite v s (windowReg off) = .next t ∧ t.faults = s.faults) ↔ (off = 0 → CommandHasOutcome s v) := by
  rw [← windowReg_eq_cmd_iff]
  rcases windowWrite_cases v s (windowReg off) with ⟨hcmd, hw⟩ | ⟨hcmd, hw⟩
  · rw [hw, exec_keeps_faults_iff]
    exact ⟨fun h _ => h, fun h => h hcmd⟩
  · rw [hw]
    exact ⟨fun _ h => absurd h hcmd, fun _ => ⟨s, rfl, rfl⟩⟩

/-- Settles O51, kind of access by kind: the check decides all but a write to CMD, and there the word does. -/
theorem hostRulesAreExactlyWhatCompletes : Obligations.HostRulesAreExactlyWhatCompletes := by
  intro s op
  cases op with
  | memRead a n => simp [hostStep_memRead_eq_next_iff, HostOpHasOutcome, busCheck_ok_iff]
  | memWrite a n v =>
    constructor
    · rintro ⟨t, ht, hf⟩
      obtain ⟨off, hb, hw⟩ := hostStep_memWrite_eq_next_iff.mp ht
      obtain ⟨hn, hlo, hhi, ha, rfl⟩ := (busCheck_ok_iff ..).mp hb
      exact ⟨hn, hlo, hhi, ha, fun hcmd => (windowWrite_keeps_faults_iff s v _).mp ⟨t, hw, hf⟩ (by omega)⟩
    · rintro ⟨hn, hlo, hhi, ha, hcmd⟩
      obtain ⟨t, hw, hf⟩ := (windowWrite_keeps_faults_iff s v (a - s.cfg.base)).mpr fun h => hcmd (by omega)
      exact ⟨t, hostStep_memWrite_eq_next_iff.mpr ⟨_, (busCheck_ok_iff ..).mpr ⟨hn, hlo, hhi, ha, rfl⟩, hw⟩, hf⟩
  | pinRead r g => simp [hostStep_pinRead_eq_next_iff, HostOpHasOutcome]
  | pinWrite r g v => simp [hostStep_pinWrite_eq_next_iff, HostOpHasOutcome]

end Sys2Proof.Machine
end

section
/-! The family `30_encoding`: what the word of each opcode decodes to (30_encoding R75, R76), that decoding and encoding
undo each other (R77), and that a command's assembly line gives its word (R78). -/

namespace Sys2Proof

/-! ### The fields of a word as numbers (30_encoding R67 to R72) -/

section
variable (w : Word)

theorem toNat_egrp : (Word.egrp w).toNat = w.toNat / 2 ^ 16 % 2 ^ 8 := toNat_field w 16 8
theorem toNat_lgrp : (Word.lgrp w).toNat = w.toNat / 2 ^ 8 % 2 ^ 8 := toNat_field w 8 8
theorem toNat_index : (Word.index w).toNat = w.toNat / 2 ^ 16 % 2 ^ 8 := toNat_field w 16 8

theorem toNat_pin : (Word.pin w).toNat = w.toNat % 2 ^ 3 := by
  rw [Word.pin, toNat_field, pow_zero, Nat.div_one]

theorem toNat_value : (Word.value w).toNat = w.toNat % 2 ^ 8 := by
  rw [Word.value, toNat_field, pow_zero, Nat.div_one]

theorem toNat_tenBit : (Word.tenBit w).toNat = w.toNat % 2 := by
  rw [Word.tenBit, toNat_field, pow_zero, Nat.div_one, pow_one]

end

/-! ### What the word of each opcode decodes to (30_encoding R75, R76) -/

section
variable {w : Word} (n : Nat)

theorem decode_of_op_register (hop : Word.op w = 0x01) :
    decode n w = if w.extractLsb' 3 5 = 0#5 ∧ (Word.egrp w).toNat < n ∧ (Word.lgrp w).toNat < n then
      .register (Word.egrp w) (Word.lgrp w) (Word.pin w) else .illegal w := by
  simp [decode, hop]

theorem decode_of_op_setDuty (hop : Word.op w = 0x02) :
    decode n w = if w.extractLsb' 8 8 = 0#8 then .setDuty (Word.index w) (Word.value w) else .illegal w := by
  simp [decode, hop]

theorem decode_of_op_setCtrl (hop : Word.op w = 0x04) :
    decode n w = if w.extractLsb' 1 23 = 0#23 then .setCtrl (Word.tenBit w) else .illegal w := by
  simp [decode, hop]

theorem decode_of_op_other (hr : Word.op w ≠ 0x01) (hd : Word.op w ≠ 0x02) (hc : Word.op w ≠ 0x04) :
    decode n w = .illegal w := by
  rw [decode, if_neg fun ⟨hop, _⟩ => hr hop, if_neg fun ⟨hop, _⟩ => hd hop, if_neg fun ⟨hop, _⟩ => hc hop]

/-- A write of TICK's event code to CMD is ILLEGAL (30_encoding R70, R75). -/
theorem decode_tickCode : decode n tickCode = .illegal tickCode :=
  decode_of_op_other n (by decide) (by decide) (by decide)

theorem decodeTrace_tickCode : decodeTrace n tickCode = .tick := if_pos rfl

theorem decodeTrace_of_ne (h : w ≠ tickCode) : decodeTrace n w = decode n w := if_neg h

end

/-- Settles O6: for each opcode the word's one arm of R75 is left, and its fields are read as numbers. -/
theorem everyWordHasOneOutcome : Obligations.EveryWordHasOneOutcome := by
  intro n w
  have hop (k : Nat) (hk : k < 256) := op_eq_iff w hk
  refine ⟨fun h => ?register, fun h => ?setDuty, fun h => ?setCtrl, fun hr hd hc => ?other⟩
  case register =>
    simp only [decode_of_op_register n ((hop 1 (by decide)).mpr h), field_zero_iff, toNat_egrp, toNat_lgrp]
    split
    · exact ⟨_, _, _, rfl, toNat_egrp w, toNat_lgrp w, toNat_pin w⟩
    · rfl
  case setDuty =>
    simp only [decode_of_op_setDuty n ((hop 2 (by decide)).mpr h), field_zero_iff]
    split
    · exact ⟨_, _, rfl, toNat_index w, toNat_value w⟩
    · rfl
  case setCtrl =>
    simp only [decode_of_op_setCtrl n ((hop 4 (by decide)).mpr h), field_zero_iff, pow_one]
    split
    · exact ⟨_, rfl, toNat_tenBit w⟩
    · rfl
  case other =>
    exact decode_of_op_other n (mt (hop 1 (by decide)).mp hr) (mt (hop 2 (by decide)).mp hd)
      (mt (hop 4 (by decide)).mp hc)

/-! ### Decoding undoes encoding -/

/-- The fields of an instruction's word stand where `Laws.WordFields` has them, so its opcode's arm reads them back. -/
theorem decode_encode {n : Nat} {i : Instr} (hwf : i.wf n = true) (hne : i ≠ .tick) : decode n (encode i) = i := by
  cases i with
  | register e l p =>
    obtain ⟨hop, hzero, he, hl, hp⟩ := Laws.WordFields.register e l p
    have hlt : e.toNat < n ∧ l.toNat < n := by simpa [Instr.wf] using hwf
    rw [decode_of_op_register n hop, he, hl, hp, if_pos ⟨hzero, hlt⟩]
  | setDuty i v =>
    obtain ⟨hop, hzero, hi, hv⟩ := Laws.WordFields.setDuty i v
    rw [decode_of_op_setDuty n hop, hi, hv, if_pos hzero]
  | tick => exact absurd rfl hne
  | setCtrl t =>
    obtain ⟨hop, hzero, ht⟩ := Laws.WordFields.setCtrl t
    rw [decode_of_op_setCtrl n hop, ht, if_pos hzero]
  | illegal w => exact (isIllegalWord_iff n w).mp hwf

/-- Only TICK and the ILLEGAL that carries it have the word 0x03000000: the block reads that word as ILLEGAL
(`decode_tickCode`). -/
theorem encode_ne_tickCode {n : Nat} {i : Instr} (hwf : i.wf n = true) (hne : i ≠ .tick) (hill : i ≠ .illegal tickCode) :
    encode i ≠ tickCode := by
  intro hw
  apply hill
  rw [← decode_encode hwf hne, hw, decode_tickCode]

theorem decodeTrace_encode {n : Nat} {i : Instr} (hwf : i.wf n = true) (hill : i ≠ .illegal tickCode) :
    decodeTrace n (encode i) = i := by
  by_cases htick : i = .tick
  · rw [htick]
    exact decodeTrace_tickCode n
  · rw [decodeTrace_of_ne n (encode_ne_tickCode hwf htick hill), decode_encode hwf htick]

/-- Settles O4: `decode_encode` on CMD, `decodeTrace_encode` in a trace. -/
theorem decodeOfEncodeIsTheInstruction : Obligations.DecodeOfEncodeIsTheInstruction :=
  ⟨fun _ _ hwf hne => decode_encode hwf hne, fun _ _ hwf hill => decodeTrace_encode hwf hill⟩

/-! ### Encoding undoes decoding -/

section
variable {w : Word}

/-- A word is its opcode, its operands and its zero bits: the fields of a format account for every bit of the word. -/
theorem encode_register_fields (hop : Word.op w = 0x01) (hzero : w.extractLsb' 3 5 = 0#5) :
    encode (.register (Word.egrp w) (Word.lgrp w) (Word.pin w)) = w := by
  have h1 := (op_eq_iff w (by decide : 1 < 256)).mp hop
  have h2 := (field_zero_iff w 3 5).mp hzero
  apply BitVec.eq_of_toNat_eq
  rw [toNat_encode_register, toNat_egrp, toNat_lgrp, toNat_pin]
  omega

theorem encode_setDuty_fields (hop : Word.op w = 0x02) (hzero : w.extractLsb' 8 8 = 0#8) :
    encode (.setDuty (Word.index w) (Word.value w)) = w := by
  have h1 := (op_eq_iff w (by decide : 2 < 256)).mp hop
  have h2 := (field_zero_iff w 8 8).mp hzero
  apply BitVec.eq_of_toNat_eq
  rw [toNat_encode_setDuty, toNat_index, toNat_value]
  omega

theorem encode_setCtrl_fields (hop : Word.op w = 0x04) (hzero : w.extractLsb' 1 23 = 0#23) :
    encode (.setCtrl (Word.tenBit w)) = w := by
  have h1 := (op_eq_iff w (by decide : 4 < 256)).mp hop
  have h2 := (field_zero_iff w 1 23).mp hzero
  apply BitVec.eq_of_toNat_eq
  rw [toNat_encode_setCtrl, toNat_tenBit]
  omega

end

theorem encode_decode (n : Nat) (w : Word) : encode (decode n w) = w := by
  by_cases hr : Word.op w = 0x01
  · rw [decode_of_op_register n hr]
    split
    · next h =>
      obtain ⟨hzero, _⟩ := h
      exact encode_register_fields hr hzero
    · rfl
  by_cases hd : Word.op w = 0x02
  · rw [decode_of_op_setDuty n hd]
    split
    · next hzero => exact encode_setDuty_fields hd hzero
    · rfl
  by_cases hc : Word.op w = 0x04
  · rw [decode_of_op_setCtrl n hc]
    split
    · next hzero => exact encode_setCtrl_fields hc hzero
    · rfl
  rw [decode_of_op_other n hr hd hc]
  rfl

/-- Settles O5: `encode_decode` and `decode_wf`; in a trace only the word of TICK is read another way. -/
theorem encodeOfDecodeIsTheWord : Obligations.EncodeOfDecodeIsTheWord := by
  intro n w
  refine ⟨encode_decode n w, Machine.decode_wf n w, ?_⟩
  by_cases hw : w = tickCode
  · rw [hw, decodeTrace_tickCode]
    exact ⟨rfl, rfl⟩
  · rw [decodeTrace_of_ne n hw]
    exact ⟨encode_decode n w, Machine.decode_wf n w⟩

/-- Settles O7: each word is run through the decoder. -/
theorem wordsOfTheVectorsDecode : Obligations.WordsOfTheVectorsDecode := by
  unfold Obligations.WordsOfTheVectorsDecode
  decide

end Sys2Proof

namespace Sys2Proof.Machine

/-! ### The word of an assembly line (30_encoding R78) -/

/-- The shifted operands do not overlap, so joining them adds them. -/
theorem regWord_eq {e l p : Nat} (he : e < 256) (hl : l < 256) (hp : p < 8) :
    regWord e l p = 1 * 2 ^ 24 + e * 2 ^ 16 + l * 2 ^ 8 + p := by
  have h8 : l <<< 8 ||| p = l * 2 ^ 8 + p := by
    rw [← Nat.shiftLeft_add_eq_or_of_lt (by omega), Nat.shiftLeft_eq]
  have h16 : e <<< 16 ||| (l * 2 ^ 8 + p) = e * 2 ^ 16 + (l * 2 ^ 8 + p) := by
    rw [← Nat.shiftLeft_add_eq_or_of_lt (by omega), Nat.shiftLeft_eq]
  rw [regWord, Nat.or_assoc, Nat.or_assoc, h8, h16, ← Nat.shiftLeft_add_eq_or_of_lt (by omega), Nat.shiftLeft_eq]
  omega

theorem dutyWord_eq {i v : Nat} (hi : i < 256) (hv : v < 256) : dutyWord i v = 2 * 2 ^ 24 + i * 2 ^ 16 + v := by
  have h16 : i <<< 16 ||| v = i * 2 ^ 16 + v := by
    rw [← Nat.shiftLeft_add_eq_or_of_lt (by omega), Nat.shiftLeft_eq]
  rw [dutyWord, Nat.or_assoc, h16, ← Nat.shiftLeft_add_eq_or_of_lt (by omega), Nat.shiftLeft_eq]
  omega

theorem ctrlWord_eq {t : Nat} (ht : t < 2) : ctrlWord t = 4 * 2 ^ 24 + t := by
  rw [ctrlWord, ← Nat.shiftLeft_add_eq_or_of_lt (by omega), Nat.shiftLeft_eq]

/-- A number that is an instruction's word, written to CMD, is the write of that word. -/
theorem writeAt_cmd (base : Nat) {k : Nat} {i : Instr} (h : k = (encode i).toNat) :
    writeAt base 0 k = .host (.memWrite base 4 (encode i)) := by
  rw [writeAt, h, BitVec.ofNat_toNat, BitVec.setWidth_eq, Nat.add_zero]

/-- Settles O9, line by line: the operands are in range, being fields, and the line's number is the word's. -/
theorem linesAssembleToTheirWords : Obligations.LinesAssembleToTheirWords := by
  intro base i line hline
  cases i with
  | register e l p =>
    cases hline
    have hk := (regWord_eq e.isLt l.isLt p.isLt).trans (toNat_encode_register e l p).symm
    rw [assembleLine, if_pos ⟨e.isLt, l.isLt, p.isLt⟩, writeAt_cmd base hk, if_neg nofun]
  | setDuty i v =>
    cases hline
    have hk := (dutyWord_eq i.isLt v.isLt).trans (toNat_encode_setDuty i v).symm
    rw [assembleLine, if_pos ⟨i.isLt, v.isLt⟩, writeAt_cmd base hk, if_neg nofun]
  | tick =>
    cases hline
    rw [assembleLine, if_pos rfl]
  | setCtrl t =>
    cases hline
    have hk := (ctrlWord_eq t.isLt).trans (toNat_encode_setCtrl t).symm
    rw [assembleLine, if_pos t.isLt, writeAt_cmd base hk, if_neg nofun]
  | illegal w => cases hline

end Sys2Proof.Machine
end

section
/-! The family `40_registry`: what REGISTER and SET_DUTY answer, with the whole next state (40_registry R81, R83, R84), and
which duty the TICKs after a SET_DUTY compare against (R87). -/

namespace Sys2Proof.Machine

/-! ### REGISTER -/

/-- Settles O13: the outcome `ExecEffect.full`, whose RESULT word is 0x5FF. -/
theorem registerIntoFullRegistryIsANoOp : Obligations.RegisterIntoFullRegistryIsANoOp := by
  intro s e l p hten hfull
  rw [(ExecEffect.full e l p ((ten_ne_one_iff _).mpr hten) hfull).exec_eq, resultFull_eq]

/-- A new entry's index is a byte with COUNT's value (10_state R23, 40_registry R81). -/
theorem resultOk_count (n : BitVec 4) : resultOk (n.zeroExtend 8) = 0x00000400 ||| n.zeroExtend 32 := by
  revert n
  decide

/-- Settles O12, arm by arm of R81: each arm's condition picks its outcome of `ExecEffect`, and the appended entry is read
off by the laws of `appendChannel`. -/
theorem registerAppendsAChannel : Obligations.RegisterAppendsAChannel := by
  intro s e l p h he _
  split
  · next hten => exact (ExecEffect.ticking e l p hten).exec_eq
  next hten =>
  split
  · next hfull => rw [(ExecEffect.full e l p hten hfull).exec_eq, resultFull_eq]
  next hroom =>
  split
  · next hhw => exact (ExecEffect.hwPin e l p hten hroom ((aliasesHwPin_iff ..).mpr hhw)).exec_eq
  next hhw =>
  have hfree : aliasesHwPin s.cfg e l p = false := eq_false_of_ne_true (mt (aliasesHwPin_iff ..).mp hhw)
  refine ⟨_, (ExecEffect.appended e l p hten hroom hfree).exec_eq, count_succ_toNat h, ?entry, ?others, ?enabled,
    ?enables, resultOk_count s.count, rfl⟩
  case entry => exact appendChannel_channel_new e l p (count_lt_length h hroom)
  case others => exact fun j hj => appendChannel_channel_other e l p s hj
  case enabled =>
    rw [pinByte_with_result]
    exact appendChannel_enable e l p (en_length h ▸ he)
  case enables =>
    intro g b hgb
    rw [pinByte_with_result]
    exact appendChannel_enable_other e l p s hgb

/-! ### SET_DUTY -/

/-- Settles O17: the outcomes `ExecEffect.noChannel` and `ExecEffect.dutyChanged`, where `changeDuty` is the rule of the
stale window. -/
theorem setDutyOverwritesOneDuty : Obligations.SetDutyOverwritesOneDuty := by
  intro s i v h
  split
  · next hi => rw [(ExecEffect.noChannel i v hi).exec_eq, resultInvalidIndex_eq]
  · next hi =>
    have hlt : i.toNat < s.count.toNat := not_le.mp hi
    exact ⟨_, (ExecEffect.dutyChanged i v hlt).exec_eq, channel_setChannel_same _ (valid_lt_length h hlt),
      fun j hj => channel_setChannel_other s _ hj, resultOk_eq i, rfl⟩

/-! ### The duty in force after a SET_DUTY -/

/-- A window open after SET_DUTY was opened by it, with TEN = 1 and the old duty in DPREV, or was open before and keeps its
DPREV (R84, R87). -/
theorem changeDuty_of_stale {b : BitVec 1} {v : Byte} {c : Channel} (h : (changeDuty b v c).stale = true) :
    (b = 1 ∨ c.stale = true) ∧ (changeDuty b v c).dprev = if c.stale then c.dprev else c.duty := by
  unfold changeDuty at h ⊢
  split
  · next hopens =>
    obtain ⟨hb, hs⟩ := hopens
    exact ⟨.inl hb, by simp [hs]⟩
  · next hopens =>
    rw [if_neg hopens] at h
    exact ⟨.inr h, (if_pos h).symm⟩

theorem setChannel_changeDuty_topOnItsBit {s : State} {k : Nat} (h : TopOnItsBit s k) (i : Nat) (b : BitVec 1)
    (v : Byte) : TopOnItsBit (s.setChannel i (changeDuty b v (s.channel i))) k := by
  intro j hkj hj
  obtain ⟨-, hlk, hpk⟩ := samePins_setChannel_changeDuty s i k b v
  obtain ⟨-, hlj, hpj⟩ := samePins_setChannel_changeDuty s i j b v
  rw [hlk, hpk, hlj, hpj]
  exact h j hkj hj

/-- What a SET_DUTY to a valid channel leaves for the next TICK: the invariant, COUNT, which channels are the highest on
their bit, and the changed entry (R84). -/
theorem exec_setDuty_of_valid {s : State} (h : s.Inv) {i : Byte} (hi : i.toNat < s.count.toNat) (v : Byte) :
    ∃ t, exec (.setDuty i v) s = .next t ∧ t.Inv ∧ t.count = s.count ∧ (∀ k, TopOnItsBit s k → TopOnItsBit t k)
      ∧ t.channel i.toNat = changeDuty s.ten v (s.channel i.toNat) := by
  have hset := ExecEffect.dutyChanged i v hi
  exact ⟨_, hset.exec_eq, hset.keeps_inv h rfl, rfl, fun _ hk => setChannel_changeDuty_topOnItsBit hk i.toNat s.ten v,
    channel_setChannel_same _ (valid_lt_length h hi)⟩

/-- Two TICKs in a row, for a channel that is the highest on its bit: the first uses a duty in force under some draw, and
closes the window, so that the second uses DUTY (41_scheduler R89). -/
theorem levelOf_two_ticks {s : State} (h : s.Inv) {i : Nat} (hi : i < s.count.toNat) (htop : TopOnItsBit s i) :
    (∃ k, levelOf (tickEffect s) i = decide ((tickEffect s).tcnt < dutyInForce k (s.channel i)))
      ∧ levelOf (tickEffect (tickEffect s)) i = decide ((tickEffect (tickEffect s)).tcnt < (s.channel i).duty) := by
  constructor
  · rw [tickEffect_tcnt]
    exact tickEffect_levelOf hi (lgrp_lt_lvl_length h hi) htop
  · have hi' : i < (tickEffect s).count.toNat := by rwa [tickEffect_count]
    rw [tickEffect_levelOf_not_stale hi' (lgrp_lt_lvl_length (inv_tickEffect h) hi') (tickEffect_topOnItsBit htop)
      (tickEffect_stale hi), tickEffect_duty, tickEffect_tcnt (tickEffect s)]

/-- Settles O18: SET_DUTY leaves entry i with DUTY v and, where its window is open, the duty before the change in DPREV
(`changeDuty_of_stale`); the two TICKs after it are those of `levelOf_two_ticks`. -/
theorem oldDutyIsUsedAtMostOnce : Obligations.OldDutyIsUsedAtMostOnce := by
  intro s i v h hi htop
  obtain ⟨s', hexec, hinv, hcount, hkeeps, hentry⟩ := exec_setDuty_of_valid h hi v
  obtain ⟨⟨k, hfirst⟩, hsecond⟩ := levelOf_two_ticks hinv (hcount ▸ hi) (hkeeps _ htop)
  rw [hentry] at hfirst hsecond
  rw [changeDuty_duty] at hsecond
  refine ⟨s', _, _, hexec, rfl, rfl, ?_, hsecond⟩
  obtain hnew | ⟨hopen, hold⟩ := dutyInForce_cases k (changeDuty s.ten v (s.channel i.toNat))
  · rw [hnew, changeDuty_duty] at hfirst
    exact .inl hfirst
  · obtain ⟨hwindow, hdprev⟩ := changeDuty_of_stale hopen
    rw [hold, hdprev] at hfirst
    exact .inr ⟨hwindow, hfirst⟩

end Sys2Proof.Machine
end

section
/-! The family `41_scheduler`: what one TICK does to every channel (41_scheduler R89 to R99), and that TICKs placed next
run, one a step (R91, 60_exceptions R113). -/

namespace Sys2Proof.Machine

/-! ### One TICK -/

/-- The level a TICK leaves for a valid channel that is the highest on its bit: the counter, already incremented, against
DUTY or, with the window open, against DPREV (R89, R90, R92). -/
theorem levelOf_tickEffect_cases {s : State} (h : s.Inv) {i : Nat} (hi : i < s.count.toNat) (htop : TopOnItsBit s i) :
    ∃ d : Byte, (d = (s.channel i).duty ∨ ((s.channel i).stale = true ∧ d = (s.channel i).dprev))
      ∧ levelOf (tickEffect s) i = decide ((tickEffect s).tcnt < d) := by
  obtain ⟨k, hk⟩ := tickEffect_levelOf hi (lgrp_lt_lvl_length h hi) htop
  rw [tickEffect_tcnt]
  exact ⟨_, dutyInForce_cases k (s.channel i), hk⟩

/-- Settles O19, part by part from the laws of `tickEffect`; the level is the one of `levelOf_tickEffect_cases`. -/
theorem tickDrivesEveryChannel : Obligations.TickDrivesEveryChannel := by
  intro s
  refine ⟨tickEffect s, rfl, ?counter, fun i hi => ?valid, fun i hi => ?unfilled,
    fun h i hi htop => levelOf_tickEffect_cases h hi htop, tickEffect_level_other s, ?frame⟩
  case counter =>
    rw [tickEffect_tcnt, BitVec.toNat_add]
    rfl
  case valid => rw [tickEffect_channel, if_pos hi]
  case unfilled => rw [tickEffect_channel, if_neg (not_lt.mpr hi)]
  case frame =>
    rw [tickEffect_tcnt]
    exact tickEffect_frame s

/-- Settles O26: with no window open the loop makes no draw and reads none (`driveChannels_with_draws`). -/
theorem tickIsAFunctionOutsideTheWindow : Obligations.TickIsAFunctionOutsideTheWindow := by
  intro s n hclosed
  obtain ⟨hkept, hunread⟩ := driveChannels_with_draws s.count.toNat (advanceCounter s) n hclosed
  exact ⟨tickEffect s, rfl, hkept, congrArg Host.Outcome.next hunread⟩

/-- Settles O25: with COUNT = 0 the loop is empty; with TEN = 1 the tick event runs TICK, which counts. -/
theorem tickWithNoChannelOnlyCounts : Obligations.TickWithNoChannelOnlyCounts := by
  refine ⟨fun s hnone => ?_, fun s hten => ⟨tickEffect s, eventStep_tick_of_enabled hten, tickEffect_tcnt s⟩⟩
  have hloop : tickEffect s = advanceCounter s := by
    rw [tickEffect, hnone]
    rfl
  exact congrArg Host.Outcome.next hloop

/-! ### Channels on different bits -/

theorem pinByte_beyond {s : State} {r : PinReg} {g : Nat} (h : (s.pinArray r).length ≤ g) : s.pinByte r g = 0 := by
  rw [State.pinByte, List.getElem?_eq_none h, Option.getD_none]

@[simp] theorem driveChannel_lgrp (s : State) (i j : Nat) :
    ((driveChannel s i).channel j).lgrp = (s.channel j).lgrp := by
  rw [driveChannel_channel]
  split
  · next h => rw [h]
  · rfl

@[simp] theorem driveChannel_pin (s : State) (i j : Nat) :
    ((driveChannel s i).channel j).pin = (s.channel j).pin := by
  rw [driveChannel_channel]
  split
  · next h => rw [h]
  · rfl

theorem driveChannel_draws (s : State) (i : Nat) :
    (driveChannel s i).draws = if (s.channel i).stale then s.draws + 1 else s.draws := rfl

/-- Every level bit after the loop body, whether or not the byte the entry names exists. -/
theorem driveChannel_bit (s : State) (i g : Nat) (b : PinIndex) :
    bitOf ((driveChannel s i).pinByte .lvl g) b
      = if (s.channel i).lgrp.toNat < s.lvl.length ∧ (s.channel i).lgrp.toNat = g ∧ (s.channel i).pin = b then
          decide (s.tcnt < dutyInForce s.draws (s.channel i))
        else bitOf (s.pinByte .lvl g) b := by
  by_cases hbit : (s.channel i).lgrp.toNat = g ∧ (s.channel i).pin = b
  · obtain ⟨rfl, rfl⟩ := hbit
    split
    · next hlt => exact driveChannel_level s i hlt.1
    · next hlt =>
      have hle : s.lvl.length ≤ (s.channel i).lgrp.toNat := by simpa using hlt
      rw [pinByte_beyond (s := s) hle, pinByte_beyond (s := driveChannel s i) (driveChannel_lvl_length s i ▸ hle)]
  · rw [driveChannel_level_other s i g b hbit, if_neg fun h => hbit h.2]

/-- States that TICK's loop treats alike but for the duty of entry `j` and for the level bit it names. -/
structure ApartInDuty (j : Nat) (s t : State) : Prop where
  tcnt : t.tcnt = s.tcnt
  draws : t.draws = s.draws
  lvl_length : t.lvl.length = s.lvl.length
  entry : t.channel j = { s.channel j with duty := (t.channel j).duty }
  others : ∀ i, i ≠ j → t.channel i = s.channel i
  levels : ∀ g b, ¬ (g = (s.channel j).lgrp.toNat ∧ b = (s.channel j).pin) →
    bitOf (t.pinByte .lvl g) b = bitOf (s.pinByte .lvl g) b

namespace ApartInDuty

variable {j : Nat} {s t : State}

theorem lgrp (h : ApartInDuty j s t) : (t.channel j).lgrp = (s.channel j).lgrp := by rw [h.entry]
theorem pin (h : ApartInDuty j s t) : (t.channel j).pin = (s.channel j).pin := by rw [h.entry]

/-- The two states make a draw at the same entries. -/
theorem stale (h : ApartInDuty j s t) (i : Nat) : (t.channel i).stale = (s.channel i).stale := by
  by_cases hi : i = j
  · rw [hi, h.entry]
  · rw [h.others i hi]

theorem driveChannel (h : ApartInDuty j s t) (n : Nat) : ApartInDuty j (driveChannel s n) (driveChannel t n) where
  tcnt := h.tcnt
  draws := by rw [driveChannel_draws, driveChannel_draws, h.stale, h.draws]
  lvl_length := by rw [driveChannel_lvl_length, driveChannel_lvl_length, h.lvl_length]
  entry := by
    rw [driveChannel_channel, driveChannel_channel]
    split
    · next hn =>
      subst hn
      rw [h.entry]
    · exact h.entry
  others i hi := by
    rw [driveChannel_channel, driveChannel_channel, h.others i hi]
    split
    · next hn => rw [← hn, h.others i hi]
    · rfl
  levels g b hgb := by
    rw [driveChannel_lgrp, driveChannel_pin] at hgb
    by_cases hn : n = j
    · subst hn
      have hother : ¬ ((s.channel n).lgrp.toNat = g ∧ (s.channel n).pin = b) := fun hbit =>
        hgb ⟨hbit.1.symm, hbit.2.symm⟩
      rw [driveChannel_level_other s n g b hother,
        driveChannel_level_other t n g b (by rwa [h.lgrp, h.pin]), h.levels g b hgb]
    · simp only [driveChannel_bit, h.others n hn, h.tcnt, h.draws, h.lvl_length, h.levels g b hgb]

theorem driveChannels (h : ApartInDuty j s t) (n : Nat) : ApartInDuty j (driveChannels n s) (driveChannels n t) := by
  induction n with
  | zero => exact h
  | succ n ih => exact ih.driveChannel n

end ApartInDuty

/-- Beyond the registry the write does nothing, and the blank entry read there has no other duty. -/
theorem apartInDuty_setChannel (s : State) (j : Nat) (v : Byte) :
    ApartInDuty j s (s.setChannel j { s.channel j with duty := v }) where
  tcnt := rfl
  draws := rfl
  lvl_length := rfl
  entry := by
    by_cases hj : j < s.channels.length
    · rw [channel_setChannel_same _ hj]
    · rw [setChannel_beyond _ (not_lt.mp hj)]
  others i hi := channel_setChannel_other s _ hi
  levels _ _ _ := by rw [setChannel_pinByte]

theorem ApartInDuty.tickEffect {j : Nat} {s t : State} (h : ApartInDuty j s t) (hcount : t.count = s.count) :
    ApartInDuty j (tickEffect s) (tickEffect t) := by
  have hadvanced : ApartInDuty j (advanceCounter s) (advanceCounter t) :=
    { h with
      tcnt := congrArg (· + 1) h.tcnt
      levels := fun g b hgb => by simpa using h.levels g b hgb }
  rw [Machine.tickEffect, Machine.tickEffect, hcount]
  exact hadvanced.driveChannels _

/-- Settles O24: the level of the highest channel on the bit is the bit of both (`levelOf_tickEffect_cases`); and another
duty of channel j leaves TICK's loop the same but for j's bit (`ApartInDuty`). -/
theorem higherIndexWinsAndOthersDoNotInteract : Obligations.HigherIndexWinsAndOthersDoNotInteract := by
  constructor
  · intro s i j h _ hj htop hlgrp hpin
    have hsame : levelOf (tickEffect s) i = levelOf (tickEffect s) j := by
      simp only [levelOf, tickEffect_lgrp, tickEffect_pin, hlgrp, hpin]
    obtain ⟨d, hd, hlevel⟩ := levelOf_tickEffect_cases h hj htop
    exact ⟨tickEffect s, rfl, hsame, d, hd, hsame.trans hlevel⟩
  · intro s j v
    refine ⟨_, _, rfl, rfl, fun g b hgb => ?_⟩
    refine ((apartInDuty_setChannel s j v).tickEffect rfl).levels g b ?_
    rwa [tickEffect_lgrp, tickEffect_pin]

/-! ### Any number of TICKs -/

theorem afterTicks_succ_first (k : Nat) (s : State) : afterTicks (k + 1) s = afterTicks k (tickEffect s) := by
  induction k with
  | zero => rfl
  | succ k ih => exact congrArg tickEffect ih

theorem afterTicks_with_inputs (k : Nat) (s : State) (l : List Event) :
    afterTicks k { s with inputs := l } = { afterTicks k s with inputs := l } := by
  induction k with
  | zero => rfl
  | succ k ih => rw [afterTicks, ih, tickEffect_with_inputs, afterTicks]

theorem afterTicks_tcnt (k : Nat) (s : State) : (afterTicks k s).tcnt = s.tcnt + BitVec.ofNat 8 k := by
  induction k with
  | zero => simp [afterTicks]
  | succ k ih =>
    rw [afterTicks, tickEffect_tcnt, ih, BitVec.ofNat_add, BitVec.add_assoc]
    rfl

theorem step_tick {s : State} {rest : List Event} (hf : s.faults = []) (hi : s.inputs = .tick :: rest)
    (hten : s.ten = 1) : step s = .next (tickEffect { s with inputs := rest }) := by
  rw [step_event hf hi]
  exact eventStep_tick_of_enabled hten

/-- With TEN = 1 the TICKs placed next run: TICK keeps FAULTS and TEN, so the tick after it runs too (R91, 60_exceptions
R113). -/
theorem run_ticks (k : Nat) {s : State} (rest : List Event) (hf : s.faults = []) (hten : s.ten = 1) :
    Host.Core.run core k { s with inputs := List.replicate k .tick ++ rest }
      = .next { afterTicks k s with inputs := rest } := by
  induction k generalizing s with
  | zero => rfl
  | succ k ih =>
    have hstep : step { s with inputs := List.replicate (k + 1) .tick ++ rest }
        = .next { tickEffect s with inputs := List.replicate k .tick ++ rest } := by
      rw [← tickEffect_with_inputs]
      exact step_tick hf rfl hten
    rw [run_succ hstep, afterTicks_succ_first]
    exact ih (by rwa [tickEffect_faults]) (by rwa [tickEffect_ten])

/-- Settles O27: `run_ticks`, and each TICK counts one (`afterTicks_tcnt`). -/
theorem anyNumberOfTicksRuns : Obligations.AnyNumberOfTicksRuns := by
  intro s k rest hf hten
  refine ⟨_, run_ticks k rest hf hten, rfl, ?_⟩
  show (afterTicks k s).tcnt.toNat = (s.tcnt.toNat + k) % 256
  rw [afterTicks_tcnt, BitVec.toNat_add, BitVec.toNat_ofNat, Nat.add_mod_mod]

end Sys2Proof.Machine
end

section
/-! The family `41_scheduler`: the waveform of a channel with no open window that is the highest on its bit (41_scheduler
R93 to R95), over one TICK and over TICKs back to back. -/

namespace Sys2Proof.Machine

/-! ### A channel that keeps its waveform -/

/-- Entry `i` is valid and holds `c`, its window is closed, and it is the highest on its level bit, in a state of the
invariant: what 41_scheduler R93 asks of a channel. -/
structure Steady (s : State) (i : Nat) (c : Channel) : Prop where
  inv : s.Inv
  valid : i < s.count.toNat
  entry : s.channel i = c
  closed : c.stale = false
  top : TopOnItsBit s i

namespace Steady

variable {s t : State} {i : Nat} {c : Channel}

/-- The waveform law (R93). -/
theorem levelOf_tickEffect (h : Steady s i c) : levelOf (tickEffect s) i = decide (s.tcnt + 1 < c.duty) := by
  obtain ⟨hinv, hvalid, rfl, hclosed, htop⟩ := h
  exact tickEffect_levelOf_not_stale hvalid (lgrp_lt_lvl_length hinv hvalid) htop hclosed

theorem tickEffect (h : Steady s i c) : Steady (tickEffect s) i c where
  inv := inv_tickEffect h.inv
  valid := by
    rw [tickEffect_count]
    exact h.valid
  entry := by rw [tickEffect_channel, if_pos h.valid, h.entry, ← h.closed]
  closed := h.closed
  top := tickEffect_topOnItsBit h.top

theorem afterTicks (h : Steady s i c) (k : Nat) : Steady (afterTicks k s) i c := by
  induction k with
  | zero => exact h
  | succ k ih => exact ih.tickEffect

theorem with_inputs (h : Steady s i c) (l : List Event) : Steady { s with inputs := l } i c :=
  ⟨inv_with_inputs h.inv l, h.valid, h.entry, h.closed, h.top⟩

end Steady

/-! ### One TICK -/

/-- Settles O20: the waveform law, at the boundary duties 0 and 255. -/
theorem levelIsCounterBelowDuty : Obligations.LevelIsCounterBelowDuty := by
  intro s i h hi hclosed htop
  have hlevel := Steady.levelOf_tickEffect ⟨h, hi, rfl, hclosed, htop⟩
  rw [← tickEffect_tcnt] at hlevel
  refine ⟨tickEffect s, rfl, hlevel, fun hzero => ?_, fun hfull => ?_⟩
  · rw [hlevel, hzero]
    exact decide_eq_false BitVec.not_lt_zero
  · rw [hlevel, hfull, decide_eq_true_iff]
    bv_omega

/-- Settles O22: the waveform law, at TCNT = 0, 255 and DUTY. -/
theorem risingEdgesFallOnTheWrap : Obligations.RisingEdgesFallOnTheWrap := by
  intro s i h hi hclosed htop
  have hlevel := Steady.levelOf_tickEffect ⟨h, hi, rfl, hclosed, htop⟩
  refine ⟨tickEffect s, rfl, fun hwrap => ?_, fun hlast => ?_, fun hduty => ?_⟩
  · rw [hlevel, tickEffect_tcnt, hwrap, decide_eq_true_iff]
    exact ⟨rfl, by bv_omega⟩
  · rw [hlevel, tickEffect_tcnt, hlast, decide_eq_false_iff_not]
    exact ⟨rfl, by bv_omega⟩
  · rw [hlevel, hduty]
    exact decide_eq_false (BitVec.lt_irrefl _)

/-! ### The values of the counter over 256 TICKs -/

/-- How many of the next `n` values of a counter that stands at `c` meet `q`. -/
def countsWhere (q : Byte → Bool) (c : Byte) (n : Nat) : Nat := Nat.count (fun m => q (c + BitVec.ofNat 8 (m + 1))) n

section
variable (q : Byte → Bool) (c : Byte) (n : Nat)

@[simp] theorem countsWhere_zero : countsWhere q c 0 = 0 := Nat.count_zero _

theorem countsWhere_succ_last :
    countsWhere q c (n + 1) = countsWhere q c n + if q (c + BitVec.ofNat 8 (n + 1)) then 1 else 0 := Nat.count_succ _ n

theorem countsWhere_succ_first :
    countsWhere q c (n + 1) = (if q (c + 1) then 1 else 0) + countsWhere q (c + 1) n := by
  have hshift (m : Nat) : c + BitVec.ofNat 8 (m + 1 + 1) = c + 1 + BitVec.ofNat 8 (m + 1) := by
    rw [BitVec.add_assoc, Nat.add_comm, BitVec.ofNat_add]
    rfl
  rw [countsWhere, Nat.count_succ', Nat.add_comm]
  simp only [hshift]
  rfl

/-- The next 256 values are all the values there are, wherever the counter stands: both sides and the values below `c`
make up the numbers below `c + 257`. -/
theorem countsWhere_256 : countsWhere q c 256 = Nat.count (fun m => q (BitVec.ofNat 8 m)) 256 := by
  have hleft := Nat.count_add (fun m => q (BitVec.ofNat 8 m) = true) (c.toNat + 1) 256
  have hright := Nat.count_add' (fun m => q (BitVec.ofNat 8 m) = true) (c.toNat + 1) 256
  have hwrap (m : Nat) : BitVec.ofNat 8 (m + 256) = BitVec.ofNat 8 m := by bv_omega
  have hshift (m : Nat) : BitVec.ofNat 8 (c.toNat + 1 + m) = c + BitVec.ofNat 8 (m + 1) := by bv_omega
  simp only [hwrap] at hright
  simp only [hshift] at hleft
  rw [countsWhere]
  omega

end

/-- Of the 256 values exactly `d` are below `d`. -/
theorem countsWhere_lt_256 (c d : Byte) : countsWhere (fun v => decide (v < d)) c 256 = d.toNat := by
  have hd := d.isLt
  rw [countsWhere_256, Nat.count_eq_card_filter_range]
  have hbelow : (Finset.range 256).filter (fun m => decide (BitVec.ofNat 8 m < d) = true) = Finset.range d.toNat := by
    ext m
    simp only [Finset.mem_filter, Finset.mem_range, decide_eq_true_eq, BitVec.lt_def, BitVec.toNat_ofNat]
    omega
  rw [hbelow, Finset.card_range]

theorem countsWhere_eq_256 (c v : Byte) : countsWhere (fun u => u == v) c 256 = 1 := by
  have hv := v.isLt
  rw [countsWhere_256, Nat.count_eq_card_filter_range]
  have honly : (Finset.range 256).filter (fun m => (BitVec.ofNat 8 m == v) = true) = {v.toNat} := by
    ext m
    simp only [Finset.mem_filter, Finset.mem_range, Finset.mem_singleton, beq_iff_eq, ← BitVec.toNat_inj,
      BitVec.toNat_ofNat]
    omega
  rw [honly, Finset.card_singleton]

/-! ### TICKs back to back -/

theorem highTicks_eq_countsWhere {s : State} {i : Nat} {c : Channel} (h : Steady s i c) (n : Nat) :
    highTicks s i n = countsWhere (fun v => decide (v < c.duty)) s.tcnt n := by
  induction n with
  | zero => rw [highTicks, countsWhere_zero]
  | succ n ih =>
    have hlevel : levelOf (afterTicks (n + 1) s) i = decide (s.tcnt + BitVec.ofNat 8 (n + 1) < c.duty) := by
      rw [← afterTicks_tcnt, afterTicks, tickEffect_tcnt]
      exact (h.afterTicks n).levelOf_tickEffect
    rw [highTicks, ih, countsWhere_succ_last, hlevel]

/-- Every value is the counter's after exactly one of 256 TICKs. -/
theorem existsUnique_tick_of_value (c v : Byte) :
    ∃ k, 1 ≤ k ∧ k ≤ 256 ∧ c + BitVec.ofNat 8 k = v ∧ ∀ j, 1 ≤ j → j ≤ 256 → c + BitVec.ofNat 8 j = v → j = k :=
  ⟨(v - c - 1).toNat + 1, by bv_omega, by bv_omega, by bv_omega, by bv_omega⟩

/-- Settles O21: the TICKs' levels are counted by `highTicks_eq_countsWhere`, and 256 TICKs take the counter once round. -/
theorem dutyFractionIsExact : Obligations.DutyFractionIsExact := by
  intro s i h hi hclosed htop
  refine ⟨?high, ?wrap, ?values⟩
  case high => rw [highTicks_eq_countsWhere ⟨h, hi, rfl, hclosed, htop⟩, countsWhere_lt_256]
  case wrap =>
    rw [afterTicks_tcnt]
    exact BitVec.add_zero s.tcnt
  case values =>
    simp only [afterTicks_tcnt]
    exact existsUnique_tick_of_value s.tcnt

end Sys2Proof.Machine
end

section
/-! The family `41_scheduler`: the waveform over a run in which the host acts between the TICKs (41_scheduler R94). -/

namespace Sys2Proof.Machine

/-! ### A step of such a run -/

/-- No instruction writes the events yet to come. -/
theorem ExecEffect.inputs_eq {s t : State} {ins : Instr} (he : ExecEffect s ins t) : t.inputs = s.inputs := by
  cases he with
  | tick => exact tickEffect_inputs s
  | ticking | full | hwPin | appended | noChannel | dutyChanged | ctrl | illegal => rfl

theorem EventEffect.inputs_eq {s t : State} {ev : Event} (he : EventEffect s ev t) : t.inputs = s.inputs := by
  cases he with
  | tick => exact tickEffect_inputs s
  | read | ignored => rfl
  | pinWrite => exact setPinByte_inputs ..
  | command w he => exact he.inputs_eq

/-- A step takes the next event out of the inputs, if there is one (00_scope R12). -/
theorem step_inputs {s t : State} (hstep : step s = .next t) : t.inputs = s.inputs.tail := by
  obtain ⟨-, ⟨hi, rfl⟩ | ⟨ev, rest, hi, he⟩⟩ := step_effect hstep
  · rw [hi, List.tail_nil]
  · rw [he.inputs_eq, hi, List.tail_cons]

/-- A step whose next event is a TICK, and that answers a next state, ran TICK. -/
theorem step_eq_tickEffect {s t : State} (hstep : step s = .next t) (hhead : s.inputs.head? = some .tick) :
    t = tickEffect { s with inputs := s.inputs.tail } := by
  obtain ⟨-, ⟨hi, -⟩ | ⟨ev, rest, hi, he⟩⟩ := step_effect hstep
  · simp [hi] at hhead
  · obtain rfl : ev = .tick := by simpa [hi] using hhead
    rw [hi]
    cases he
    rfl

/-- Only a TICK counts (10_state R44). -/
theorem step_tcnt_of_no_tick {s t : State} (hstep : step s = .next t) (hhead : s.inputs.head? ≠ some .tick) :
    t.tcnt = s.tcnt := by
  obtain ⟨-, htcnt, -⟩ := eachElementHasItsWriters s t hstep
  by_contra hne
  exact hhead (htcnt hne).2

theorem LeavesChannel.congr {s t : State} {i : Nat} {ev : Event} (h : LeavesChannel s i ev) (hcfg : t.cfg = s.cfg)
    (hentry : t.channel i = s.channel i) : LeavesChannel t i ev := by
  rwa [LeavesChannel, hcfg, hentry]

/-- A REGISTER on another level bit leaves the highest channel on its bit the highest. -/
theorem appendChannel_topOnItsBit {s : State} (h : s.Inv) (hroom : s.count.toNat ≠ s.cfg.capacity) {i : Nat}
    (hi : i < s.count.toNat) (htop : TopOnItsBit s i) {e l : Byte} {p : PinIndex}
    (hother : ¬ (l = (s.channel i).lgrp ∧ p = (s.channel i).pin)) : TopOnItsBit (appendChannel e l p s) i := by
  intro j hij hj
  rw [appendChannel_count, count_succ_toNat h] at hj
  rw [appendChannel_channel_other e l p s hi.ne]
  by_cases hnew : j = s.count.toNat
  · rw [hnew, appendChannel_channel_new e l p (count_lt_length h hroom)]
    exact hother
  · rw [appendChannel_channel_other e l p s hnew]
    exact htop j hij (by omega)

namespace Steady

variable {s t : State} {i : Nat} {c : Channel}

/-- A command that is no SET_DUTY to the channel and no REGISTER on its bit keeps its waveform (R94). -/
theorem execEffect (h : Steady s i c) {ins : Instr} (hwf : ins.wf s.cfg.numGroups = true)
    (hduty : ∀ j v, ins = .setDuty j v → j.toNat ≠ i)
    (hreg : ∀ e l p, ins = .register e l p → ¬ (l = (s.channel i).lgrp ∧ p = (s.channel i).pin))
    (he : ExecEffect s ins t) : Steady t i c := by
  obtain ⟨hvalid, -⟩ := he.keeps_entry h.inv h.valid
  have hinv := he.keeps_inv h.inv hwf
  cases he with
  | ticking | full | hwPin | noChannel | ctrl | illegal => exact ⟨hinv, hvalid, h.entry, h.closed, h.top⟩
  | tick => exact h.tickEffect
  | appended e l p _ hroom =>
    have hkept := appendChannel_channel_other e l p s h.valid.ne
    exact ⟨hinv, hvalid, hkept.trans h.entry, h.closed,
      appendChannel_topOnItsBit h.inv hroom h.valid h.top (hreg e l p rfl)⟩
  | dutyChanged j v =>
    have hkept := channel_setChannel_other s (changeDuty s.ten v (s.channel j.toNat)) (hduty j v rfl).symm
    exact ⟨hinv, hvalid, hkept.trans h.entry, h.closed, setChannel_changeDuty_topOnItsBit h.top j.toNat s.ten v⟩

theorem eventEffect (h : Steady s i c) {ev : Event} (hev : LeavesChannel s i ev) (he : EventEffect s ev t) :
    Steady t i c := by
  cases he with
  | tick => exact h.tickEffect
  | read => exact ⟨{ h.inv with }, h.valid, h.entry, h.closed, h.top⟩
  | ignored => exact h
  | command w he =>
    obtain ⟨hduty, hreg⟩ := hev w rfl
    exact h.execEffect (decode_wf _ w) hduty hreg he
  | pinWrite r g v =>
    exact ⟨inv_setPinByte h.inv r g v, by simpa using h.valid, by simpa using h.entry, h.closed,
      setPinByte_topOnItsBit h.top r g v⟩

theorem step (h : Steady s i c) (hev : ∀ ev, s.inputs.head? = some ev → LeavesChannel s i ev)
    (hstep : step s = .next t) : Steady t i c := by
  obtain ⟨-, ⟨-, rfl⟩ | ⟨ev, rest, hi, he⟩⟩ := step_effect hstep
  · exact h
  · exact (h.with_inputs rest).eventEffect (hev ev (by rw [hi, List.head?_cons])) he

end Steady

/-! ### The run -/

/-- A run of several steps that completes is a step and the run after it. -/
theorem run_succ_inv {s t : State} {k : Nat} (h : Host.Core.run core (k + 1) s = .next t) :
    ∃ u, step s = .next u ∧ Host.Core.run core k u = .next t := by
  have heq := Host.Core.run.eq_2 core s k
  cases hstep : step s with
  | next u => exact ⟨u, rfl, run_succ hstep k ▸ h⟩
  | fault r =>
    rw [show Host.Core.step core s = .fault r from hstep, h] at heq
    cases heq
  | refused r =>
    rw [show Host.Core.step core s = .refused r from hstep, h] at heq
    cases heq

theorem ticksWhere_succ {s t : State} (hstep : step s = .next t) (p : State → Bool) (k : Nat) :
    ticksWhere p (k + 1) s
      = (if s.inputs.head? = some .tick ∧ p t = true then 1 else 0) + ticksWhere p k t := by
  rw [ticksWhere, hstep]

theorem forall_mem_take_succ (P : Event → Prop) (evs : List Event) (k : Nat) :
    (∀ ev ∈ evs.take (k + 1), P ev) ↔ (∀ ev, evs.head? = some ev → P ev) ∧ ∀ ev ∈ evs.tail.take k, P ev := by
  cases evs with
  | nil => simp
  | cons ev rest => simp

/-- The TICKs among the first `k + 1` events. -/
theorem count_tick_take_succ (evs : List Event) (k : Nat) :
    (evs.take (k + 1)).count .tick
      = (evs.tail.take k).count .tick + if evs.head? = some .tick then 1 else 0 := by
  cases evs with
  | nil => simp
  | cons ev rest => simp [List.count_cons]

/-- Over a run that leaves channel `i` its waveform, whatever else the host does between the TICKs, the counter advances by
the number of TICKs, and the TICKs after which `p` holds are counted by the counter's values alone, where `p` is decided
by them. -/
theorem run_of_steady {i : Nat} {c : Channel} {p : State → Bool} {q : Byte → Bool}
    (hp : ∀ u, Steady u i c → p (tickEffect u) = q (u.tcnt + 1)) (k : Nat) {s t : State} (h : Steady s i c)
    (hev : ∀ ev ∈ s.inputs.take k, LeavesChannel s i ev) (hrun : Host.Core.run core k s = .next t) :
    Steady t i c ∧ t.tcnt = s.tcnt + BitVec.ofNat 8 ((s.inputs.take k).count .tick)
      ∧ ticksWhere p k s = countsWhere q s.tcnt ((s.inputs.take k).count .tick) := by
  induction k generalizing s with
  | zero =>
    obtain rfl : s = t := Host.Outcome.next.inj hrun
    exact ⟨h, by simp, by simp [ticksWhere]⟩
  | succ k ih =>
    obtain ⟨u, hstep, hrest⟩ := run_succ_inv hrun
    obtain ⟨hfirst, hothers⟩ := (forall_mem_take_succ ..).mp hev
    have hu : Steady u i c := h.step hfirst hstep
    have hcfg : u.cfg = s.cfg := (eachElementHasItsWriters s u hstep).1
    rw [← step_inputs hstep] at hothers
    obtain ⟨ht, htcnt, hcount⟩ :=
      ih hu (fun ev hmem => (hothers ev hmem).congr hcfg (hu.entry.trans h.entry.symm)) hrest
    refine ⟨ht, ?_⟩
    rw [ticksWhere_succ hstep, hcount, htcnt, step_inputs hstep, count_tick_take_succ]
    by_cases hhead : s.inputs.head? = some .tick
    · obtain ⟨hadvance, hpu⟩ : u.tcnt = s.tcnt + 1 ∧ p u = q (s.tcnt + 1) := by
        rw [step_eq_tickEffect hstep hhead]
        exact ⟨tickEffect_tcnt _, hp _ (h.with_inputs s.inputs.tail)⟩
      simp only [hhead, true_and, if_true, hpu, hadvance, countsWhere_succ_first, and_true]
      rw [Nat.add_comm, BitVec.ofNat_add, ← BitVec.add_assoc]
      rfl
    · simp only [hhead, false_and, if_false, Nat.zero_add, Nat.add_zero, step_tcnt_of_no_tick hstep hhead, and_self]

/-- Settles O53: `run_of_steady` for the two counted properties, and 256 TICKs take the counter once round. -/
theorem dutyFractionIsExactInEveryRun : Obligations.DutyFractionIsExactInEveryRun := by
  intro s t i k h hi hclosed htop hev hticks hrun
  have hsteady : Steady s i (s.channel i) := ⟨h, hi, rfl, hclosed, htop⟩
  have hlevels := run_of_steady (p := fun u => levelOf u i) (q := fun v => decide (v < (s.channel i).duty))
    (fun u hu => hu.levelOf_tickEffect) k hsteady hev hrun
  have hvalues (v : Byte) := run_of_steady (p := fun u => u.tcnt == v) (q := fun u => u == v)
    (fun u _ => by rw [tickEffect_tcnt]) k hsteady hev hrun
  rw [hticks] at hlevels
  simp only [hticks, countsWhere_eq_256] at hvalues
  obtain ⟨ht, htcnt, hhigh⟩ := hlevels
  refine ⟨?_, ?_, ht.entry, fun v => (hvalues v).2.2⟩
  · rw [hhigh, countsWhere_lt_256]
  · rw [htcnt]
    exact BitVec.add_zero s.tcnt

end Sys2Proof.Machine
end

section
/-! The family `42_control`: SET_CTRL and ILLEGAL, the words that are ILLEGAL (42_control R100, R102), and when the tick
source may fire (R101). -/

namespace Sys2Proof.Machine

/-! ### SET_CTRL -/

theorem resultOk_zero : resultOk 0 = 0x00000400 := by decide

/-- Settles O28: the one outcome SET_CTRL has (`ExecEffect.ctrl`), with its RESULT word computed. -/
theorem setCtrlWritesTheTickEnable : Obligations.SetCtrlWritesTheTickEnable := by
  intro s t
  rw [(ExecEffect.ctrl t).exec_eq, resultOk_zero]

/-! ### ILLEGAL -/

theorem exec_illegal (s : State) (w : Word) : exec (.illegal w) s = .next { s with result := 0x000007FF } := by
  rw [(ExecEffect.illegal w).exec_eq, resultIllegal_eq]

/-- A write of an illegal word to CMD is the step of ILLEGAL (20_memory R55, 42_control R102). -/
theorem hostStep_cmd_of_illegal {s : State} {w : Word} (h : decode s.cfg.numGroups w = .illegal w) :
    hostStep (.memWrite s.cfg.base 4 w) s = .next { s with result := 0x000007FF } := by
  rw [hostStep_cmd, h, exec_illegal]

/-- Settles O30: each kind of word R102 lists fails the condition its opcode has in R75 (`everyWordHasOneOutcome`), so
it is ILLEGAL. -/
theorem illegalWordsChangeOnlyResult : Obligations.IllegalWordsChangeOnlyResult := by
  refine ⟨exec_illegal, fun s w hkind => hostStep_cmd_of_illegal ?_⟩
  obtain ⟨hregister, hsetDuty, hsetCtrl, hother⟩ := everyWordHasOneOutcome s.cfg.numGroups w
  rcases hkind with hop | ⟨hop, hfields⟩ | ⟨hop, hreserved⟩ | ⟨hop, hreserved⟩
  · exact hother (by omega) (by omega) (by omega)
  · have harm := hregister hop
    rwa [if_neg (by omega)] at harm
  · have harm := hsetDuty hop
    rwa [if_neg hreserved] at harm
  · have harm := hsetCtrl hop
    rwa [if_neg hreserved] at harm

/-! ### The tick source -/

/-- A step with a tick event next and TEN = 0 is refused (42_control R101). -/
theorem step_tick_of_disabled {s : State} {rest : List Event} (hf : s.faults = []) (hi : s.inputs = .tick :: rest)
    (hten : s.ten = 0) : step s = .refused .tickWhileDisabled := by
  rw [step_event hf hi]
  exact if_neg ((ten_ne_one_iff s.ten).mpr hten)

/-- A step that changes TEN is the host's write to CMD of a SET_CTRL with the new value (42_control R101). -/
theorem step_ten_of_ne {s t : State} (hstep : step s = .next t) (hne : t.ten ≠ s.ten) :
    ∃ w rest, s.inputs = .host (.memWrite s.cfg.base 4 w) :: rest ∧ decode s.cfg.numGroups w = .setCtrl t.ten := by
  obtain ⟨-, -, -, -, -, hwriter, -⟩ := eachElementHasItsWriters s t hstep
  obtain ⟨w, hhead, hdecode⟩ := hwriter hne
  obtain ⟨rest, hinputs⟩ := List.head?_eq_some_iff.mp hhead
  exact ⟨w, rest, hinputs, hdecode⟩

/-- Settles O11: `step_tick` with TEN = 1, `step_tick_of_disabled` with TEN = 0, and TEN goes from 0 to 1 by its one
writer (`step_ten_of_ne`). -/
theorem tickFiresOnlyWhileEnabled : Obligations.TickFiresOnlyWhileEnabled := by
  intro s hf
  refine ⟨fun rest hi hten => ⟨_, step_tick hf hi hten, tickEffect_tcnt _⟩, fun rest hi hten t => ?_,
    fun t hstep hfrom hto => ?_⟩
  · rw [step_tick_of_disabled hf hi hten]
    nofun
  · rw [← hto]
    exact step_ten_of_ne hstep (by simp [hfrom, hto])

end Sys2Proof.Machine
end

section
/-! The family `60_exceptions`: what a fault leaves (60_exceptions R107), the outcome words of RESULT (R106), which outcome
wins (R109), what the host's rules give (R123), and what the fairness of the tick source gives (R113). -/

namespace Sys2Proof.Machine

/-! ### Faults -/

/-- Settles O14: the outcomes `ExecEffect.ticking` and `ExecEffect.hwPin` append the reason and keep the rest; that no
step follows is the last fact of `faultsOnlyGrow`. -/
theorem faultsAreRecordedAndFinal : Obligations.FaultsAreRecordedAndFinal := by
  obtain ⟨-, -, hfinal⟩ := faultsOnlyGrow
  refine ⟨fun s e l p hten => (ExecEffect.ticking e l p hten).exec_eq, fun s e l p hten hroom hhw => ?_, hfinal⟩
  exact (ExecEffect.hwPin e l p ((ten_ne_one_iff _).mpr hten) hroom ((aliasesHwPin_iff ..).mpr hhw)).exec_eq

/-! ### The outcome words -/

/-- Settles O31, outcome by outcome of each command: a REGISTER that faults has changed FAULTS, and of the other outcomes
the one whose condition holds wrote its word. -/
theorem everyOutcomeHasItsResultWord : Obligations.EveryOutcomeHasItsResultWord := by
  intro s t
  simp only [exec_eq_next_iff]
  refine ⟨fun e l p he hf => ?register, fun i v he => ?setDuty, fun b he => ?setCtrl, fun w he => ?illegal⟩
  case register =>
    cases he with
    | ticking | hwPin => simp at hf
    | full _ _ _ _ hfull => rw [if_pos hfull, resultFull_eq]
    | appended _ _ _ _ hroom =>
      rw [if_neg hroom]
      exact resultOk_count s.count
  case setDuty =>
    cases he with
    | noChannel _ _ hi => rw [if_pos hi, resultInvalidIndex_eq]
    | dutyChanged _ _ hi =>
      rw [if_neg (not_le.mpr hi)]
      exact resultOk_eq i
  case setCtrl =>
    cases he
    exact resultOk_zero
  case illegal =>
    cases he
    exact resultIllegal_eq

/-! ### The order of the outcomes -/

/-- REGISTER's alias check lets a channel pass that names no pin of HW_PWM_PINS (40_registry R86). -/
theorem aliasesHwPin_eq_false {c : Config} {e l : Byte} {p : PinIndex}
    (h : ¬ ((e, p) ∈ c.hwPwmPins ∨ (l, p) ∈ c.hwPwmPins)) : aliasesHwPin c e l p = false :=
  eq_false_of_ne_true (mt (aliasesHwPin_iff ..).mp h)

/-- A write to CMD has the outcome of its word (20_memory R55, 30_encoding R75). -/
theorem ExecEffect.hostStep_cmd_eq {s t : State} {w : Word} {i : Instr} (he : ExecEffect s i t)
    (hdecode : decode s.cfg.numGroups w = i) : hostStep (.memWrite s.cfg.base 4 w) s = .next t := by
  rw [hostStep_cmd, hdecode, he.exec_eq]

/-- Settles O50: the check refuses before the word is read; the conditions of `ExecEffect` exclude each other in the order
of R109, so the first that holds picks the outcome. -/
theorem outcomesFollowTheirPriority : Obligations.OutcomesFollowTheirPriority := by
  intro s w
  refine ⟨fun a n hlo hhi hbad => ?refused, fun hill => ?illegal, fun e l p hdecode => ?register,
    fun i v hdecode => ?setDuty⟩
  case refused =>
    by_cases hn : n = 4
    · subst hn
      have hmisaligned := hbad.resolve_left (· rfl)
      exact ⟨_, (hostStep_window_of_error (busCheck_of_misaligned hlo hhi hmisaligned) w).2⟩
    · exact ⟨_, (hostStep_window_of_error (busCheck_of_width hlo hhi hn) w).2⟩
  case illegal => exact hostStep_cmd_of_illegal ((isIllegalWord_iff ..).mp hill)
  case register =>
    split
    · next hten => exact (ExecEffect.ticking e l p hten).hostStep_cmd_eq hdecode
    next hten =>
    split
    · next hfull => rw [(ExecEffect.full e l p hten hfull).hostStep_cmd_eq hdecode, resultFull_eq]
    next hroom =>
    split
    · next hhw => exact (ExecEffect.hwPin e l p hten hroom ((aliasesHwPin_iff ..).mpr hhw)).hostStep_cmd_eq hdecode
    · next hhw =>
      have happended := ExecEffect.appended e l p hten hroom (aliasesHwPin_eq_false hhw)
      exact ⟨_, happended.hostStep_cmd_eq hdecode, resultOk_count s.count⟩
  case setDuty =>
    split
    · next hi => rw [(ExecEffect.noChannel i v hi).hostStep_cmd_eq hdecode, resultInvalidIndex_eq]
    · next hi => exact ⟨_, (ExecEffect.dutyChanged i v (not_le.mp hi)).hostStep_cmd_eq hdecode, resultOk_eq i⟩

/-! ### The host's rules -/

/-- What R123 says of REGISTER is enough for an outcome without a fault: it names no pin of HW_PWM_PINS, so a registry with
room takes it. -/
theorem CommandKeepsRules.hasOutcome {s : State} {w : Word} (h : CommandKeepsRules s w) : CommandHasOutcome s w := by
  refine (commandHasOutcome_iff s w).mpr fun e l p hdecode => ?_
  obtain ⟨hten, henable, hlevel⟩ := h e l p hdecode
  exact ⟨hten, .inr (aliasesHwPin_eq_false (not_or.mpr ⟨henable, hlevel⟩))⟩

theorem HostKeepsRules.hasOutcome {s : State} {op : HostOp} (h : HostKeepsRules s op) : HostOpHasOutcome s op := by
  cases op with
  | memRead a n => exact h
  | memWrite a n v =>
    obtain ⟨hn, hlo, hhi, ha, hcmd⟩ := h
    exact ⟨hn, hlo, hhi, ha, fun hbase => (hcmd hbase).hasOutcome⟩
  | pinRead r g => exact h
  | pinWrite r g v => exact h

/-- Settles O54: the host's rules imply the conditions under which an operation completes without a fault (O51). -/
theorem keepingTheHostRulesCompletes : Obligations.KeepingTheHostRulesCompletes := fun s op h =>
  (hostRulesAreExactlyWhatCompletes s op).mpr h.hasOutcome

/-! ### The counter in a fair run -/

/-- No instruction but TICK counts (10_state R30, R44). -/
theorem ExecEffect.tcnt_eq {s t : State} {i : Instr} (he : ExecEffect s i t) (hne : i ≠ .tick) : t.tcnt = s.tcnt := by
  cases he with
  | tick => exact absurd rfl hne
  | ticking | full | hwPin | appended | noChannel | dutyChanged | ctrl | illegal => rfl

theorem EventEffect.tcnt_eq {s t : State} {ev : Event} (he : EventEffect s ev t) (hne : ev ≠ .tick) :
    t.tcnt = s.tcnt := by
  cases he with
  | tick => exact absurd rfl hne
  | read | ignored => rfl
  | command w he => exact he.tcnt_eq (decode_ne_tick _ w)
  | pinWrite r g v => exact setPinByte_tcnt ..

namespace InfiniteRun

variable {st : Nat → State} {ev : Nat → Event}

theorem tcnt_of_tick (h : InfiniteRun st ev) {k : Nat} (hev : ev k = .tick) : (st (k + 1)).tcnt = (st k).tcnt + 1 := by
  obtain ⟨-, hstep⟩ := h k
  rw [hev] at hstep
  obtain ⟨-, ht⟩ := tickEvent_cases hstep
  rw [ht, tickEffect_tcnt]

theorem tcnt_of_no_tick (h : InfiniteRun st ev) {k : Nat} (hev : ev k ≠ .tick) : (st (k + 1)).tcnt = (st k).tcnt :=
  (eventStep_effect (h k).2).tcnt_eq hev

/-- With a TICK among the steps to come the counter goes up by one, at the first of them: the steps before it leave the
counter. -/
theorem exists_tcnt_succ (h : InfiniteRun st ev) (d : Nat) {j : Nat} (hev : ev (j + d) = .tick) :
    ∃ m, j ≤ m ∧ (st m).tcnt = (st j).tcnt + 1 := by
  induction d generalizing j with
  | zero => exact ⟨j + 1, by omega, h.tcnt_of_tick hev⟩
  | succ d ih =>
    by_cases hj : ev j = .tick
    · exact ⟨j + 1, by omega, h.tcnt_of_tick hj⟩
    · obtain ⟨m, hm, htcnt⟩ := ih (j := j + 1) (by rwa [Nat.add_right_comm])
      exact ⟨m, by omega, by rw [htcnt, h.tcnt_of_no_tick hj]⟩

/-- With TICKs again and again the counter goes up by any amount. -/
theorem exists_tcnt_add (h : InfiniteRun st ev) (hticks : ∀ j, ∃ m, j ≤ m ∧ ev m = .tick) (j n : Nat) :
    ∃ m, j ≤ m ∧ (st m).tcnt = (st j).tcnt + BitVec.ofNat 8 n := by
  induction n with
  | zero => exact ⟨j, le_rfl, (BitVec.add_zero _).symm⟩
  | succ n ih =>
    obtain ⟨m, hjm, hm⟩ := ih
    obtain ⟨u, hmu, hu⟩ := hticks m
    obtain ⟨m', hmm', hm'⟩ := h.exists_tcnt_succ (u - m) (by rwa [Nat.add_sub_cancel' hmu])
    refine ⟨m', hjm.trans hmm', ?_⟩
    rw [hm', hm, BitVec.ofNat_add, ← BitVec.add_assoc]
    rfl

end InfiniteRun

/-- Settles O52: fairness gives TICKs again and again, and from the count at step `j` it is `v - TCNT` TICKs to `v`. -/
theorem fairTicksReachEveryCount : Obligations.FairTicksReachEveryCount := by
  intro st ev op taken k hfair hten v j
  obtain ⟨m, hm, htcnt⟩ := hfair.run.exists_tcnt_add (hfair.ticks_fair k hten) j (v - (st j).tcnt).toNat
  refine ⟨m, hm, ?_⟩
  rw [htcnt, BitVec.ofNat_toNat, BitVec.setWidth_eq, BitVec.add_comm, BitVec.sub_add_cancel]

end Sys2Proof.Machine
end

section
/-! The family `70_reset_and_hazards`: what reset leaves and shows (70_reset R125, R126), that the invariant holds in every
state a run reaches (R127), and the spec's derived facts on registering a pin (R133), on a read-modify-write of LVL (R136)
and on levels while ticks are off (R139). -/

namespace Sys2Proof.Machine

/-! ### Reset -/

/-- The registry holds blank entries, and beyond it an entry reads as a blank one. -/
theorem resetWith_channel (c : Config) (i : Nat) : (State.resetWith c).channel i = Channel.blank := by
  simp only [State.channel, State.resetWith, List.getElem?_replicate]
  split <;> rfl

/-- Settles O1: every entry is blank (`resetWith_channel`), and every other element is written out in `State.resetWith`. -/
theorem resetLeavesEveryField : Obligations.ResetLeavesEveryField := by
  intro c
  refine ⟨rfl, fun i _ => ?_, rfl, rfl, rfl, rfl, fun g _ => ⟨rfl, rfl⟩⟩
  rw [resetWith_channel]
  exact ⟨rfl, rfl⟩

/-- Settles O2: `resetWith_status` for STATUS, and COUNT is 0, so no slot shows an entry. -/
theorem resetViewsRead : Obligations.ResetViewsRead := fun _ h =>
  ⟨rfl, resetWith_status h, fun i => chan_unfilled (Nat.not_lt_zero i)⟩

/-! ### The states a run reaches -/

/-- The invariant holds at reset with any program placed, and every step keeps it and the configuration. -/
theorem Reachable.inv_and_cfg {c : Config} {s : State} (hreach : Reachable c s) (hok : c.Ok) : s.Inv ∧ s.cfg = c := by
  induction hreach with
  | reset evs n => exact ⟨{ resetMeetsTheInvariant c hok with }, rfl⟩
  | @step s t _ hstep ih =>
    obtain ⟨hinv, hcfg⟩ := ih
    exact ⟨stepKeepsTheInvariant s t hinv hstep, (eachElementHasItsWriters s t hstep).1.trans hcfg⟩

/-- Settles O34: the invariant along the run, and with TEN = 1 a TICK runs (`eventStep_tick_of_enabled`) and keeps it. -/
theorem reachableStatesMeetTheInvariant : Obligations.ReachableStatesMeetTheInvariant := by
  intro c s hok hreach
  obtain ⟨hinv, hcfg⟩ := hreach.inv_and_cfg hok
  exact ⟨hinv, hcfg, fun _ hten => ⟨tickEffect s, eventStep_tick_of_enabled hten, inv_tickEffect hinv⟩⟩

/-! ### The level a pin shows -/

/-- The level of a pin is read from the configuration, the pin's enable bit and LVL alone (10_state R38). -/
theorem pinLevel_congr {s t : State} {g : Byte} {b : PinIndex} (hcfg : t.cfg = s.cfg) (hlvl : t.lvl = s.lvl)
    (hen : bitOf (t.pinByte .en g.toNat) b = bitOf (s.pinByte .en g.toNat) b) : t.pinLevel g b = s.pinLevel g b := by
  have hbyte : t.pinByte .lvl g.toNat = s.pinByte .lvl g.toNat := by simp only [State.pinByte, State.pinArray, hlvl]
  rw [State.pinLevel, State.pinLevel, hcfg, hen, hbyte]

/-- A pin that is driven, and is none of HW_PWM_PINS, shows its bit of LVL (10_state R38). -/
theorem pinLevel_of_driven {s : State} {g : Byte} {b : PinIndex} (hhw : (g, b) ∉ s.cfg.hwPwmPins)
    (hen : bitOf (s.pinByte .en g.toNat) b = true) :
    s.pinLevel g b = some (bitOf (s.pinByte .lvl g.toNat) b) := by
  rw [State.pinLevel, if_neg hhw, if_pos hen]

/-- Settles O16: the outcome is `ExecEffect.appended`; it sets the pin's enable bit, and leaves LVL and every other enable
bit as they were. -/
theorem registeredPinIsDrivenAtItsOldLevel : Obligations.RegisteredPinIsDrivenAtItsOldLevel := by
  intro s g p h hten hroom hg hhw
  have hen : bitOf ((appendChannel g g p s).pinByte .en g.toNat) p = true :=
    appendChannel_enable g g p (by rwa [en_length h])
  have happended := ExecEffect.appended g g p ((ten_ne_one_iff _).mpr hten) hroom.ne
    (aliasesHwPin_eq_false (not_or.mpr ⟨hhw, hhw⟩))
  refine ⟨_, happended.exec_eq, pinLevel_of_driven hhw hen, fun g' b hother => ?_⟩
  refine pinLevel_congr rfl rfl (appendChannel_enable_other g g p s ?_)
  rwa [BitVec.toNat_inj]

/-! ### A read-modify-write of LVL with a TICK between -/

theorem step_pinRead {s : State} {r : PinReg} {g : Nat} {rest : List Event} (hf : s.faults = [])
    (hi : s.inputs = .host (.pinRead r g) :: rest) (hg : g < s.cfg.numGroups) :
    step s = .next { s with inputs := rest, observed := s.observed ++ [.byte (s.pinByte r g)] } := by
  rw [step_event hf hi, ← pinByte_with_inputs s g r rest]
  exact hostStep_pinRead_of_lt (s := { s with inputs := rest }) hg r

theorem step_pinWrite {s : State} {r : PinReg} {g : Nat} {v : Byte} {rest : List Event} (hf : s.faults = [])
    (hi : s.inputs = .host (.pinWrite r g v) :: rest) (hg : g < s.cfg.numGroups) :
    step s = .next (({ s with inputs := rest } : State).setPinByte r g v) := by
  rw [step_event hf hi]
  exact hostStep_pinWrite_of_lt (s := { s with inputs := rest }) hg r v

/-- A TICK and then a pin write: a TICK changes neither FAULTS nor the groups there are, so the write runs too. -/
theorem run_tick_pinWrite {s : State} {g : Nat} {v : Byte} (hf : s.faults = []) (hten : s.ten = 1)
    (hg : g < s.cfg.numGroups) (hi : s.inputs = [.tick, .host (.pinWrite .lvl g v)]) :
    Host.Core.run core 2 s = .next ((tickEffect { s with inputs := [] }).setPinByte .lvl g v) := by
  have htick := step_tick hf hi hten
  have hwrite := step_pinWrite (s := tickEffect { s with inputs := [.host (.pinWrite .lvl g v)] })
    ((tickEffect_faults _).trans hf) (tickEffect_inputs _) (by rwa [tickEffect_cfg])
  rw [← tickEffect_with_inputs] at hwrite
  exact (run_succ htick 1).trans (run_succ hwrite 0)

theorem run_pinRead_tick_pinWrite {s : State} {g : Nat} {v : Byte} (hf : s.faults = []) (hten : s.ten = 1)
    (hg : g < s.cfg.numGroups) (hi : s.inputs = [.host (.pinRead .lvl g), .tick, .host (.pinWrite .lvl g v)]) :
    Host.Core.run core 3 s
      = .next ((tickEffect { s with inputs := [], observed := s.observed ++ [.byte (s.pinByte .lvl g)] }).setPinByte
          .lvl g v) :=
  (run_succ (step_pinRead hf hi hg) 2).trans
    (run_tick_pinWrite (s := { s with inputs := _, observed := s.observed ++ [.byte (s.pinByte .lvl g)] }) hf hten hg rfl)

/-- Settles O49: the run of `run_pinRead_tick_pinWrite`. The TICK counts one and leaves what was observed, and the write at the
end replaces the whole byte. -/
theorem readModifyWriteUndoesTheTickBetween : Obligations.ReadModifyWriteUndoesTheTickBetween := by
  intro s g m h hf hten hg
  refine ⟨_, run_pinRead_tick_pinWrite hf hten hg rfl, ?_, ?_, pinByte_setPinByte_same _ ?_⟩
  · exact (setPinByte_observed ..).trans (tickEffect_observed _)
  · exact (setPinByte_tcnt ..).trans (tickEffect_tcnt _)
  · rwa [State.pinArray, tickEffect_lvl_length, lvl_length h]

/-! ### Levels while ticks are off -/

/-- An event that is no host write to LVL and no write to CMD that decodes to SET_CTRL 1: one that, with TEN = 0, lets the
levels stay (70_reset R139). -/
def LeavesLevelsFrozen (c : Config) (ev : Event) : Prop :=
  (∀ g v, ev ≠ .host (.pinWrite .lvl g v)) ∧ ∀ w, ev = .host (.memWrite c.base 4 w) → decode c.numGroups w ≠ .setCtrl 1

/-- With TEN = 0 the only writers left to LVL and to TEN are the two events excluded, and TCNT has none (10_state R44). -/
theorem step_keeps_levels {s t : State} (hten : s.ten = 0)
    (hev : ∀ ev, s.inputs.head? = some ev → LeavesLevelsFrozen s.cfg ev) (hstep : step s = .next t) :
    t.lvl = s.lvl ∧ t.tcnt = s.tcnt ∧ t.ten = 0 := by
  obtain ⟨-, htcnt, hlvl, -, -, hctrl, -⟩ := eachElementHasItsWriters s t hstep
  have hoff : s.ten ≠ 1 := (ten_ne_one_iff _).mpr hten
  refine ⟨by_contra fun hne => ?_, by_contra fun hne => hoff (htcnt hne).1, by_contra fun hne => ?_⟩
  · obtain ⟨hon, -⟩ | ⟨g, v, hhead⟩ := hlvl hne
    · exact hoff hon
    · exact (hev _ hhead).1 g v rfl
  · obtain ⟨w, hhead, hdecode⟩ := hctrl (hten ▸ hne)
    have hon : t.ten = 1 := not_imp_comm.mp (ten_ne_one_iff t.ten).mp hne
    exact (hev _ hhead).2 w rfl (hon ▸ hdecode)

/-- The freeze along a run: each step takes one event, and the events left are among those the run began with. -/
theorem run_keeps_levels (k : Nat) {s t : State} (hten : s.ten = 0) (hev : ∀ ev ∈ s.inputs, LeavesLevelsFrozen s.cfg ev)
    (hrun : Host.Core.run core k s = .next t) : t.lvl = s.lvl ∧ t.tcnt = s.tcnt ∧ t.ten = 0 := by
  induction k generalizing s with
  | zero =>
    obtain rfl : s = t := Host.Outcome.next.inj hrun
    exact ⟨rfl, rfl, hten⟩
  | succ k ih =>
    obtain ⟨u, hstep, hrest⟩ := run_succ_inv hrun
    obtain ⟨hlvl, htcnt, hoff⟩ := step_keeps_levels hten (fun ev hhead => hev ev (List.mem_of_head? hhead)) hstep
    have hleft : ∀ ev ∈ u.inputs, LeavesLevelsFrozen u.cfg ev := by
      rw [step_inputs hstep, (eachElementHasItsWriters s u hstep).1]
      exact fun ev hmem => hev ev (List.mem_of_mem_tail hmem)
    obtain ⟨hlvl', htcnt', hoff'⟩ := ih hoff hleft hrest
    exact ⟨hlvl'.trans hlvl, htcnt'.trans htcnt, hoff'⟩

/-- Settles O29: SET_CTRL writes nothing a pin's level is read from, and `run_keeps_levels`. -/
theorem levelsFreezeWhileTicksAreOff : Obligations.LevelsFreezeWhileTicksAreOff :=
  ⟨fun _ => ⟨_, (ExecEffect.ctrl 0).exec_eq, rfl, fun _ _ => pinLevel_congr rfl rfl rfl⟩,
    fun _ _ k hten hev hrun => run_keeps_levels k hten hev hrun⟩

end Sys2Proof.Machine
end
